-- ==== Sys2Proof/Word.lean ====
section
/-! DEFINITION. The words of the D2I converter, the two result widths, and the extensions of a vector to the
64-bit result port (spec/00_scope.md R7, R11, R12). -/

namespace Sys2Proof

/-- An operand pattern `d` or a value of the result port `r`: 64 bits (R7 `OPERAND_BITS`, R8 `RESULT_BITS`). -/
abbrev Word := BitVec 64

/-- One byte lane of a port (20_memory.md R42). -/
abbrev Byte := BitVec 8

/-- The operation select `op`: 3 bits (R8 `OP_BITS`). -/
abbrev OpCode := BitVec 3

/-- A command word `{op, d}`: 67 bits (30_encoding.md R60). -/
abbrev CommandWord := BitVec 67

/-- A response word `{ill, r}`: 65 bits (30_encoding.md R69). -/
abbrev ResponseWord := BitVec 65

/-- The result width W of an operation, 32 or 64 and nothing else (R6, R7; 92_eei_decisions.md D22). -/
inductive Width where
  | w32
  | w64
  deriving DecidableEq, Repr

/-- W as a number. -/
abbrev Width.bits : Width → Nat
  | .w32 => 32
  | .w64 => 64

/-- `zext_64(v)` (R12). -/
def zext64 {n : Nat} (v : BitVec n) : Word := v.setWidth 64

/-- `sext_64(v)` (R12). -/
def sext64 {n : Nat} (v : BitVec n) : Word := v.signExtend 64

end Sys2Proof
end

