-- ==== Sys2Proof/Config.lean ====
section
/-! DEFINITION. The constants the document fixes (00_scope.md R7), the build-time parameters of an instance (R8),
and the free values of the ports' unspecified reads (10_state.md R32). -/

namespace Sys2Proof.Config

/-- `EXP_BIAS` (R7). -/
def expBias : Nat := 1023

/-- `EXP_SHIFT`: the position of the exponent field's lowest bit, and the shift pivot (R7). -/
def expShift : Nat := 52

/-- The largest biased exponent, the encoding of infinities and NaNs (00_scope.md R14, 93_implementation_defined.md G1). -/
def expMax : Nat := 2047

/-- The build-time parameters of an instance (R8). They are fixed before reset and no port reads or writes them
(10_state.md R24), so State carries them and no step changes them (log 2). -/
structure Params where
  /-- `HAS_TOINTEGER`: whether op code 4 is TOINTEGER (43_tointeger.md R140). -/
  hasToInteger : Bool
  /-- `FASTPATH`: whether TOINT32 is computed by an alternate datapath. No architectural effect (44_fastpath.md R162). -/
  fastPath : Bool
  /-- `LATENCY`: cycles from a request to its response (70_reset_and_hazards.md R197). -/
  latency : Nat
  deriving DecidableEq, Repr

/-- The baseline: `HAS_TOINTEGER` = 0 and `LATENCY` = 0 are the spec's values (R8, D8, D12); `FASTPATH` = 0 is a
DESIGN CHOICE, the spec gives it no default (log 2). -/
def Params.baseline : Params := { hasToInteger := false, fastPath := false, latency := 0 }

/-- FREE VALUE. What `rsp_r` carries in a cycle in which it is unspecified: no response, or a response with
`ill` = 1 (10_state.md R32; log 4). The argument is the model's cycle index, so that the value may differ each time. -/
opaque unspecifiedR : Nat → Word

/-- FREE VALUE. What `rsp_ill` carries in a cycle with `rsp_valid` = 0 (10_state.md R32; log 4). -/
opaque unspecifiedIll : Nat → Bool

end Sys2Proof.Config
end

