-- ==== Sys2Proof/Machine/Operands.lean ====
section
/-! DEFINITION. The operand: bit layout and byte lanes (20_memory.md R41, R42), the decomposer (40_decomposer.md R80,
R81), the exponent classes (R82) and the special-value predicates (R87). -/

namespace Sys2Proof.Machine

/-- `sign = bits[63]` (R80). -/
def sign (bits : Word) : BitVec 1 := bits.extractLsb' 63 1

/-- `bexp = bits[62:52]`, the biased exponent (R80). -/
def bexp (bits : Word) : BitVec 11 := bits.extractLsb' 52 11

/-- `mant = bits[51:0]`, the stored mantissa (R80). -/
def mant (bits : Word) : BitVec 52 := bits.extractLsb' 0 52

/-- `e = zext_12(bexp) − 1023`, a signed 12-bit value, for every operand alike (R81). -/
def decodedExp (bits : Word) : BitVec 12 := (bexp bits).setWidth 12 - BitVec.ofNat 12 Config.expBias

/-- The decoded exponent read as the signed number it is (R81, 00_scope.md R11). -/
def expOf (bits : Word) : Int := (decodedExp bits).toInt

/-- The exponent classes of R82. -/
inductive ExpClass where
  | small
  | huge
  | align
  deriving DecidableEq, Repr

/-- `cls_W(e)`, the comparisons signed, tested in this order (R82). -/
def classOf (W : Width) (e : Int) : ExpClass :=
  if e < 0 then .small else if e ≥ Config.expShift + W.bits then .huge else .align

/-- +0 or −0 (R87). -/
def isZero (bits : Word) : Bool := bexp bits == 0#11 && mant bits == 0#52

/-- A subnormal (R87). -/
def isSub (bits : Word) : Bool := bexp bits == 0#11 && mant bits != 0#52

/-- +Infinity or −Infinity (R87). -/
def isInf (bits : Word) : Bool := bexp bits == 2047#11 && mant bits == 0#52

/-- Any NaN, quiet or signalling, either sign (R87). -/
def isNaN (bits : Word) : Bool := bexp bits == 2047#11 && mant bits != 0#52

/-- Byte lane k of a 64-bit port, bits 8k+7 to 8k (R42). -/
def lane (v : Word) (k : Nat) : Byte := v.extractLsb' (8 * k) 8

/-- The value whose lane k is the k-th byte of the list, lane 0 first; lanes past the list are 0. -/
def ofLanes : List Byte → Word
  | [] => 0
  | b :: bs => b.setWidth 64 ||| (ofLanes bs <<< 8)

/-- The pattern a little-endian requester drives for eight bytes in memory, lowest address first (R42). -/
def ofBytesLE (bytes : List Byte) : Word := ofLanes bytes

/-- The pattern a big-endian requester drives for eight bytes in memory, lowest address first (R42). -/
def ofBytesBE (bytes : List Byte) : Word := ofLanes bytes.reverse

end Sys2Proof.Machine
end

