-- ==== Sys2Proof/Syntax.lean ====
section
/-! DEFINITION. The operations of the D2I command set, version 1, with their one operand (30_encoding.md R61, R63). -/

namespace Sys2Proof

/-- One constructor per row of spec/opcode_table.json. The operand is the double's 64-bit pattern, used verbatim (R63). -/
inductive Instr where
  /-- TOINT32 (42_signed_converter.md R124). -/
  | toint32 (d : Word)
  /-- TOUINT32 (41_unsigned_converter.md R107). -/
  | touint32 (d : Word)
  /-- TOINT64 (42_signed_converter.md R125). -/
  | toint64 (d : Word)
  /-- TOUINT64 (41_unsigned_converter.md R108). -/
  | touint64 (d : Word)
  /-- TOINTEGER (43_tointeger.md R144), the operation of option TI. -/
  | tointeger (d : Word)
  deriving DecidableEq, Repr

/-- The operand `d` of a command (R63). -/
def Instr.operand : Instr → Word
  | .toint32 d => d
  | .touint32 d => d
  | .toint64 d => d
  | .touint64 d => d
  | .tointeger d => d

/-- The document's generic names: `ToIntWidth<W>(d)` when `signed`, else `ToUintWidth<W>(d)`, are aliases of the four
fixed-width operations (30_encoding.md R68). -/
def Instr.fixedWidth (W : Width) (signed : Bool) (d : Word) : Instr :=
  match W, signed with
  | .w32, true => .toint32 d
  | .w32, false => .touint32 d
  | .w64, true => .toint64 d
  | .w64, false => .touint64 d

end Sys2Proof
end

