-- ==== Sys2Proof/WellFormed.lean ====
section
/-! DEFINITION. Which operations an instance has: TOINTEGER only with option TI (43_tointeger.md R140). No operand
is ill-formed (30_encoding.md R65). -/

namespace Sys2Proof

/-- The operation exists in an instance with parameters `p`. -/
def Instr.wellFormed (p : Config.Params) : Instr → Bool
  | .toint32 _ => true
  | .touint32 _ => true
  | .toint64 _ => true
  | .touint64 _ => true
  | .tointeger _ => p.hasToInteger

end Sys2Proof
end

