-- ==== Sys2Proof/Decode.lean ====
section
/-! DEFINITION. The command word: decoder, encoder and opcode table (30_encoding.md R60 to R66). Bit 0 is the least
significant; `op` is bits 66:64 and `d` bits 63:0. -/

namespace Sys2Proof

/-- `{op, d}` (R60). -/
def commandWord (op : OpCode) (d : Word) : CommandWord := op ++ d

/-- CW[66:64] (R60). -/
def opField (cw : CommandWord) : OpCode := cw.extractLsb' 64 3

/-- CW[63:0] (R60). -/
def operandField (cw : CommandWord) : Word := cw.extractLsb' 0 64

/-- Why a command word is no operation. -/
inductive DecodeError where
  /-- The op select is a reserved code of this instance (R64). -/
  | reserved (op : OpCode)
  deriving DecidableEq, Repr

/-- R64: 5, 6 and 7 are reserved in every configuration, 4 when `HAS_TOINTEGER` = 0. -/
def reservedOp (p : Config.Params) (op : OpCode) : Bool :=
  op == 5#3 || op == 6#3 || op == 7#3 || (op == 4#3 && !p.hasToInteger)

/-- R61: the operation a command word selects, total on the 8 values of `op`; the operand is not examined. -/
def decode (p : Config.Params) (cw : CommandWord) : Except DecodeError Instr :=
  let op := opField cw
  let d := operandField cw
  if op = 0b000#3 then .ok (.toint32 d)
  else if op = 0b001#3 then .ok (.touint32 d)
  else if op = 0b010#3 then .ok (.toint64 d)
  else if op = 0b011#3 then .ok (.touint64 d)
  else if op = 0b100#3 ∧ p.hasToInteger = true then .ok (.tointeger d)
  else .error (.reserved op)

/-- R61: the op code of an operation. -/
def opCode : Instr → OpCode
  | .toint32 _ => 0b000#3
  | .touint32 _ => 0b001#3
  | .toint64 _ => 0b010#3
  | .touint64 _ => 0b011#3
  | .tointeger _ => 0b100#3

/-- The command word of an operation (R60, R61). -/
def encode (i : Instr) : CommandWord := commandWord (opCode i) i.operand

/-- One row of spec/opcode_table.json: a word `cw` belongs to the row when `cw &&& mask = pattern`. -/
structure TableRow where
  pattern : CommandWord
  mask : CommandWord
  deriving DecidableEq, Repr

/-- The "match" and "mask" columns of spec/opcode_table.json, copied. -/
def tableRow : Instr → TableRow
  | .toint32 _ => { pattern := 0x00000000000000000, mask := 0x70000000000000000 }
  | .touint32 _ => { pattern := 0x10000000000000000, mask := 0x70000000000000000 }
  | .toint64 _ => { pattern := 0x20000000000000000, mask := 0x70000000000000000 }
  | .touint64 _ => { pattern := 0x30000000000000000, mask := 0x70000000000000000 }
  | .tointeger _ => { pattern := 0x40000000000000000, mask := 0x70000000000000000 }

/-- The word belongs to the row. -/
def TableRow.hits (row : TableRow) (cw : CommandWord) : Bool := cw &&& row.mask == row.pattern

/-- A number as a command word: the bits at and above `nbits` are 0; a number of more than 67 bits is no command
word (R66; log 9). -/
def commandOfNat (nbits w : Nat) : Option CommandWord :=
  if w % 2 ^ nbits < 2 ^ 67 then some (BitVec.ofNat 67 (w % 2 ^ nbits)) else none

/-- The instance the opcode table describes: all five rows present, so option TI is there (log 9). -/
def tableParams : Config.Params := { Config.Params.baseline with hasToInteger := true }

/-- The instruction the decoder reads from a word numbered as spec/opcode_table.json numbers it (log 9). -/
def decodeTableWord (nbits w : Nat) : Option Instr :=
  match commandOfNat nbits w with
  | none => none
  | some cw =>
    match decode tableParams cw with
    | .ok i => some i
    | .error _ => none

end Sys2Proof
end

