-- ==== Sys2Proof/Machine/State.lean ====
section
/-! DEFINITION. The state of the converter and its ports (10_state.md R27 to R32), the outcomes of a step, and reset. -/

namespace Sys2Proof.Machine

/-- The response to one request (10_state.md R28). -/
inductive Response where
  /-- `ill` = 0 and the value of `r` (30_encoding.md R70). -/
  | result (r : Word)
  /-- `ill` = 1: IllegalOp (60_exceptions.md R171). `r` is unspecified, so the response carries no value for it
  (93_implementation_defined.md U5); `op` is the offending code, for the reader only. -/
  | illegalOp (op : OpCode)
  deriving DecidableEq, Repr

/-- What the requester drives on the input ports in one clock cycle (10_state.md R27). -/
structure PortIn where
  rst : Bool
  reqValid : Bool
  reqOp : OpCode
  reqD : Word
  deriving DecidableEq, Repr

/-- What the block drives on its output ports in one clock cycle. These three are all it has (10_state.md R27): no
trace, debug or counter port, and none that carries a signal of R29 (60_exceptions.md R181). -/
structure PortOut where
  rspValid : Bool
  rspIll : Bool
  rspR : Word
  deriving DecidableEq, Repr

/-- A cycle in which the requester presents nothing and does not reset. -/
def PortIn.idle : PortIn := { rst := false, reqValid := false, reqOp := 0, reqD := 0 }

/-- A cycle in which the requester presents the request (`op`, `d`) (R28). -/
def PortIn.present (op : OpCode) (d : Word) : PortIn :=
  { rst := false, reqValid := true, reqOp := op, reqD := d }

/-- What the block takes from its input ports in one cycle (R28, 70_reset_and_hazards.md R190). -/
inductive Sampled where
  /-- `rst` = 1: nothing is sampled. -/
  | reset
  /-- `rst` = 0 and `req_valid` = 0: no request. -/
  | idle
  /-- `rst` = 0 and `req_valid` = 1: the request (`op`, `d`). -/
  | request (op : OpCode) (d : Word)
  deriving DecidableEq, Repr

/-- The state of an instance between two clock cycles, with its requester's side of the ports. The block has no
architectural state (R20): no register, no program counter, no flag, no memory. -/
structure State where
  /-- The build-time parameters; no step changes them (R24; log 2). -/
  params : Config.Params
  /-- What the requester will drive, the next cycle first; past the end it drives `PortIn.idle` (log 1). -/
  inputs : List PortIn
  /-- The in-flight slots, the youngest first: `none` is a slot whose valid bit is 0, `some` holds the response that
  is computed from the request of that slot, a function of it as R30 allows (log 6). -/
  slots : List (Option Response)
  /-- The response port in the cycle just run: `none` is `rsp_valid` = 0 (R27). -/
  rsp : Option Response
  /-- The responses read so far, the oldest first (00_scope.md R16; log 5). -/
  received : List Response
  /-- THE MODEL'S OWN FIELD: the index at which the unspecified port values are drawn (R32; log 4). -/
  cycle : Nat
  deriving DecidableEq, Repr

/-- A step of this block never ends in a fault: its one fault, IllegalOp, is a response and the machine goes on
(60_exceptions.md R171, R174; 93_implementation_defined.md "No behaviour of the block is `stuck`"; log 19). No
constructor, so nobody raises one. -/
inductive Fault where
  deriving DecidableEq, Repr

/-- Why a step has no meaning. -/
inductive Refusal where
  /-- Raised by `exec` for an operation that has no meaning yet; safe. Every operation has one, so nobody raises it. -/
  | notModelled (mnemonic : String)
  deriving DecidableEq, Repr

/-- An instance with parameters `p` right after reset: every slot's valid bit 0, `rsp_valid` = 0 (R31). Nothing is
presented and nothing was read (log 1, log 5). -/
def State.resetOf (p : Config.Params) : State :=
  { params := p
    inputs := []
    slots := List.replicate p.latency none
    rsp := none
    received := []
    cycle := 0 }

/-- The baseline instance right after reset. -/
def State.reset : State := State.resetOf Config.Params.baseline

end Sys2Proof.Machine
end

