-- ==== Sys2Proof/Machine/Ops.lean ====
section
/-! DEFINITION. The operations every cycle is made of: sampling the input ports, moving the in-flight slots, answering
a request, taking IllegalOp, the reset cycle (10_state.md R28, R30; 60_exceptions.md R171; 70_reset_and_hazards.md
R190, R192). -/

namespace Sys2Proof.Machine

/-- What a cycle with these inputs samples: nothing while `rst` = 1, whatever `req_valid` carries (R190); a request
when `req_valid` = 1, all 67 bits together (R28). -/
def sample (pin : PortIn) : Sampled :=
  if pin.rst then .reset else if pin.reqValid then .request pin.reqOp pin.reqD else .idle

/-- What the requester drives in the coming cycle; nothing once its list is exhausted (log 1). -/
def State.portIn (s : State) : PortIn := s.inputs.headD PortIn.idle

/-- The requester's list after one cycle. -/
def State.dropInput (s : State) : State := { s with inputs := s.inputs.tail }

/-- One clock cycle with `rst` = 0. `incoming` enters at the young end of the slots and the oldest entry leaves on
the response port, so that it stands there `LATENCY` cycles after it came in, and in the same cycle when there are
no slots (R28, R30). -/
def State.clock (incoming : Option Response) (s : State) : State :=
  let leaving := s.slots.getLastD incoming
  { s with
    slots := (incoming :: s.slots).dropLast
    rsp := leaving
    received := s.received ++ leaving.toList
    cycle := s.cycle + 1 }

/-- The cycle in which a request with this response is sampled. -/
def State.answer (r : Response) (s : State) : State := s.clock (some r)

/-- A cycle with `rst` = 0 in which nothing is presented: only the requests in flight move on. -/
def State.idleCycle (s : State) : State := s.clock none

/-- A cycle with `rst` = 1: every slot's valid bit is cleared and `rsp_valid` is 0 (R190); what the requester has
already read stays read. -/
def State.resetCycle (s : State) : State :=
  { s with
    slots := List.replicate s.params.latency none
    rsp := none
    cycle := s.cycle + 1 }

/-- `rsp.r <- r`, `rsp.ill <- 0` for the request just sampled. -/
def respond (r : Word) (s : State) : Host.Outcome State Fault Refusal := .next (s.answer (.result r))

/-- `raise IllegalOp(op)` (R171). This is the whole of taking the block's one fault: the response, at the normal time
and in order, has `ill` = 1 and no value for `r`; no state is saved, nothing else changes and there is nothing to
return from (R174, R175). -/
def raiseIllegalOp (op : OpCode) (s : State) : Host.Outcome State Fault Refusal :=
  .next (s.answer (.illegalOp op))

/-- The state in which the requester presents the command word `cw` in the coming cycle, before all it was going to
drive. A word with op code 4 is presented to the build that has that row, the one with option TI (log 8). -/
def State.present (cw : CommandWord) (s : State) : State :=
  { s with
    params := { s.params with hasToInteger := s.params.hasToInteger || opField cw == 4#3 }
    inputs := PortIn.present (opField cw) (operandField cw) :: s.inputs }

/-- `State.present` for a word numbered as spec/opcode_table.json numbers it; a number of more than 67 bits is no
command word and changes nothing (log 8, log 9). -/
def presentTableWord (s : State) (nbits w : Nat) : State :=
  match commandOfNat nbits w with
  | none => s
  | some cw => s.present cw

end Sys2Proof.Machine
end

