-- ==== Sys2Proof/Machine/Unsigned.lean ====
section
/-! DEFINITION. The unsigned modular converter (41_unsigned_converter.md R101 to R104), one definition per wire of
10_state.md R29, and the meanings of TOUINT32 (R107) and TOUINT64 (R108). -/

namespace Sys2Proof.Machine

/-- `sh`, step 4: the whole 64-bit pattern shifted by `e − 52`, left if positive, logically right if negative (R102). -/
def alignShift (bits : Word) : Word :=
  let e := expOf bits
  if e > Config.expShift then bits <<< (e - Config.expShift).toNat
  else if e < Config.expShift then bits >>> (Config.expShift - e).toNat
  else bits

/-- `t = sh[W−1:0]` (R102). -/
def truncated (W : Width) (bits : Word) : BitVec W.bits := (alignShift bits).setWidth W.bits

/-- `one = 1_W << e`, used only when `0 ≤ e < W` (R103). -/
def oneAt (W : Width) (bits : Word) : BitVec W.bits := 1#W.bits <<< (expOf bits).toNat

/-- `v`, step 5: keep the bits below `e` and set bit `e` when `e < W`; otherwise `t` unchanged (R103). -/
def magnitude (W : Width) (bits : Word) : BitVec W.bits :=
  if expOf bits < W.bits then
    (truncated W bits &&& (oneAt W bits - 1#W.bits)) + oneAt W bits
  else truncated W bits

/-- `u`, step 6: the two's-complement negation when the sign is set (R104). -/
def signCorrected (W : Width) (bits : Word) : BitVec W.bits :=
  if sign bits = 1#1 then ~~~(magnitude W bits) + 1#W.bits else magnitude W bits

/-- `ToUintWidth_W(bits)` (R101): 0 in the classes SMALL and HUGE, steps 2 and 3, before any shift. -/
def toUintWidth (W : Width) (bits : Word) : BitVec W.bits :=
  match classOf W (expOf bits) with
  | .small => 0#W.bits
  | .huge => 0#W.bits
  | .align => signCorrected W bits

/-- TOUINT32: `rsp.r <- zext_64(ToUintWidth_32(d))` (R107, 30_encoding.md R70). -/
def execTouint32 (d : Word) (s : State) : Host.Outcome State Fault Refusal :=
  respond (zext64 (toUintWidth .w32 d)) s

/-- TOUINT64: `rsp.r <- ToUintWidth_64(d)` (R108, 30_encoding.md R70). -/
def execTouint64 (d : Word) (s : State) : Host.Outcome State Fault Refusal :=
  respond (toUintWidth .w64 d) s

end Sys2Proof.Machine
end

