-- ==== Sys2Proof/Machine/Signed.lean ====
section
/-! DEFINITION. The signed modular converter by the document's formula (42_signed_converter.md R121) and the meanings of
TOINT32 (R124) and TOINT64 (R125). -/

namespace Sys2Proof.Machine

/-- `MaxValue = 2^(W−1) − 1` (R121). -/
def maxValue (W : Width) : Int := 2 ^ (W.bits - 1) - 1

/-- `MinValue = −2^(W−1)` (R121). -/
def minValue (W : Width) : Int := -2 ^ (W.bits - 1)

/-- The unsigned-to-signed reinterpretation, over the mathematical integers and in the document's order (R121, R122). -/
def reinterpretSigned (W : Width) (u : Int) : Int :=
  if u ≤ maxValue W then u else (minValue W + (u - maxValue W)) - 1

/-- `ToIntWidth_W(bits)`: a signed integer that fits W bits (R121). -/
def toIntWidth (W : Width) (bits : Word) : Int := reinterpretSigned W (toUintWidth W bits).toNat

/-- The W-bit two's-complement vector that carries `s` (R123). -/
def signedBits (W : Width) (bits : Word) : BitVec W.bits := BitVec.ofInt W.bits (toIntWidth W bits)

/-- TOINT32: `rsp.r <- sext_64(ToIntWidth_32(d))` (R124, 30_encoding.md R70). `FASTPATH` has no part in it
(44_fastpath.md R162; log 7). -/
def execToint32 (d : Word) (s : State) : Host.Outcome State Fault Refusal :=
  respond (sext64 (signedBits .w32 d)) s

/-- TOINT64: `rsp.r <- ToIntWidth_64(d)` (R125, 30_encoding.md R70). -/
def execToint64 (d : Word) (s : State) : Host.Outcome State Fault Refusal :=
  respond (signedBits .w64 d) s

end Sys2Proof.Machine
end

