-- ==== Sys2Proof/Machine/ToInteger.lean ====
section
/-! DEFINITION. Option TI: truncation of a double to an integral double at the bit level (43_tointeger.md R142, R143) and
the meaning of TOINTEGER (R144). -/

namespace Sys2Proof.Machine

/-- `{sign, 0_63}`: the zero with the operand's sign (R142; −0 on (−1, 0) is the spec's decision D13, log 10). -/
def signedZero (bits : Word) : Word := sign bits ++ 0#63

/-- `bits & ~((1_64 << k) − 1)`: the low `k` bits cleared (R142). -/
def clearLow (bits : Word) (k : Nat) : Word := bits &&& ~~~((1#64 <<< k) - 1#64)

/-- `ToInteger(bits)`, branch for branch (R142). -/
def toInteger (bits : Word) : Word :=
  if isZero bits then bits
  else if isNaN bits then 0x0000000000000000#64
  else if isInf bits then bits
  else if expOf bits < 0 then signedZero bits
  else if expOf bits ≥ Config.expShift then bits
  else clearLow bits (Config.expShift - expOf bits).toNat

/-- TOINTEGER: IllegalOp(0b100) when the option is absent, else `rsp.r <- ToInteger(d)` (R144). -/
def execTointeger (d : Word) (s : State) : Host.Outcome State Fault Refusal :=
  if s.params.hasToInteger then respond (toInteger d) s else raiseIllegalOp 0b100#3 s

end Sys2Proof.Machine
end

