-- ==== Sys2Proof/Machine/Dispatch.lean ====
section
/-! DEFINITION. One arm per operation of the command set (30_encoding.md R61). -/

namespace Sys2Proof.Machine

def exec (i : Instr) (s : State) : Host.Outcome State Fault Refusal :=
  match i with
  | .toint32 d => Sys2Proof.Machine.execToint32 d s
  | .touint32 d => Sys2Proof.Machine.execTouint32 d s
  | .toint64 d => Sys2Proof.Machine.execToint64 d s
  | .touint64 d => Sys2Proof.Machine.execTouint64 d s
  | .tointeger d => Sys2Proof.Machine.execTointeger d s

end Sys2Proof.Machine
end

