-- ==== Sys2Proof/Machine/Request.lean ====
section
/-! DEFINITION. The transaction level: the function from a request to its response (10_state.md R20, R28), written as
R28 writes it, and how a cycle uses the operations of Dispatch.lean. -/

namespace Sys2Proof.Machine

/-- `Exec(op, d)` (R28). Of the build-time parameters it reads `HAS_TOINTEGER` alone (00_scope.md R8, R9). -/
def Exec (p : Config.Params) (op : OpCode) (d : Word) : Response :=
  if op = 0b000#3 then .result (sext64 (signedBits .w32 d))
  else if op = 0b001#3 then .result (zext64 (toUintWidth .w32 d))
  else if op = 0b010#3 then .result (signedBits .w64 d)
  else if op = 0b011#3 then .result (toUintWidth .w64 d)
  else if op = 0b100#3 ∧ p.hasToInteger = true then .result (toInteger d)
  else .illegalOp op

/-- What a cycle's inputs ask to be answered: the response to the request sampled, if one is. -/
def PortIn.response (p : Config.Params) (pin : PortIn) : Option Response :=
  match sample pin with
  | .reset => none
  | .idle => none
  | .request op d => some (Exec p op d)

/-- A request is decoded and its operation executed; a reserved op code takes IllegalOp (30_encoding.md R64). -/
def runRequest (op : OpCode) (d : Word) (s : State) : Host.Outcome State Fault Refusal :=
  match decode s.params (commandWord op d) with
  | .ok i => exec i s
  | .error (.reserved o) => raiseIllegalOp o s

/-- A cycle that has sampled `x`. -/
def runCycle (x : Sampled) (s : State) : Host.Outcome State Fault Refusal :=
  match x with
  | .reset => .next s.resetCycle
  | .idle => .next s.idleCycle
  | .request op d => runRequest op d s

end Sys2Proof.Machine
end

