-- ==== Sys2Proof/Machine/Step.lean ====
section
/-! DEFINITION. One step is one clock cycle (10_state.md R28; 70_reset_and_hazards.md R190): the input ports are sampled,
and the cycle runs what they ask for. -/

namespace Sys2Proof.Machine

/-- One clock cycle. -/
def step (s : State) : Host.Outcome State Fault Refusal := runCycle (sample s.portIn) s.dropInput

/-- `s` with the request whose command word is `w` presented in the coming cycle (log 8). -/
def State.withFetchWord (s : State) (nbits w : Nat) : State := presentTableWord s nbits w

end Sys2Proof.Machine
end

