-- ==== Sys2Proof/Machine/Asm.lean ====
section
/-! DEFINITION. The assembler syntax of 30_encoding.md R67: one request per line, a mnemonic or `.op <n>`, an operand,
and a comment after `;`. Source text is a list of characters. The hexadecimal operand is the canonical form; decimal
literals go to the nearest double, ties to the even mantissa (log 15). -/

namespace Sys2Proof.Machine

/-- The line without its comment. -/
def dropComment : List Char → List Char
  | [] => []
  | c :: cs => if c = ';' then [] else c :: dropComment cs

/-- The maximal runs of characters other than blanks; `current` is the run being read, in reverse. -/
def splitWords : (current : List Char) → List Char → List (List Char)
  | [], [] => []
  | current, [] => [current.reverse]
  | current, c :: cs =>
    if c = ' ' ∨ c = '\t' then
      (if current.isEmpty then splitWords [] cs else current.reverse :: splitWords [] cs)
    else splitWords (c :: current) cs

/-- The lower-case operation name (R67). -/
def mnemonicText : Instr → List Char
  | .toint32 _ => ['t', 'o', 'i', 'n', 't', '3', '2']
  | .touint32 _ => ['t', 'o', 'u', 'i', 'n', 't', '3', '2']
  | .toint64 _ => ['t', 'o', 'i', 'n', 't', '6', '4']
  | .touint64 _ => ['t', 'o', 'u', 'i', 'n', 't', '6', '4']
  | .tointeger _ => ['t', 'o', 'i', 'n', 't', 'e', 'g', 'e', 'r']

/-- The five operations on one operand, in the order of R61. -/
def operationsOn (d : Word) : List Instr := [.toint32 d, .touint32 d, .toint64 d, .touint64 d, .tointeger d]

/-- The op code a mnemonic names; the assembler knows all five, whatever the instance has. -/
def opOfMnemonic (word : List Char) : Option OpCode :=
  ((operationsOn 0).find? (fun i => mnemonicText i = word)).map opCode

/-- The value of a decimal digit. -/
def decimalDigit (c : Char) : Option Nat :=
  if 48 ≤ c.toNat ∧ c.toNat ≤ 57 then some (c.toNat - 48) else none

/-- The value of a hexadecimal digit, either case. -/
def hexDigit (c : Char) : Option Nat :=
  if 48 ≤ c.toNat ∧ c.toNat ≤ 57 then some (c.toNat - 48)
  else if 65 ≤ c.toNat ∧ c.toNat ≤ 70 then some (c.toNat - 55)
  else if 97 ≤ c.toNat ∧ c.toNat ≤ 102 then some (c.toNat - 87)
  else none

/-- The number written by hexadecimal digits, most significant first, after the digits that gave `acc`. -/
def hexNumber : (acc : Nat) → List Char → Option Nat
  | acc, [] => some acc
  | acc, c :: cs =>
    match hexDigit c with
    | none => none
    | some k => hexNumber (16 * acc + k) cs

/-- The value, the count and the rest of a run of decimal digits. -/
def takeDigits : (acc count : Nat) → List Char → Nat × Nat × List Char
  | acc, count, [] => (acc, count, [])
  | acc, count, c :: cs =>
    match decimalDigit c with
    | none => (acc, count, c :: cs)
    | some k => takeDigits (10 * acc + k) (count + 1) cs

/-- A decimal literal: `(−1)^negative · coefficient · 10^exponent`. -/
structure Decimal where
  negative : Bool
  coefficient : Nat
  exponent : Int
  deriving DecidableEq, Repr

/-- An optional sign. -/
def takeSign : List Char → Bool × List Char
  | '-' :: cs => (true, cs)
  | '+' :: cs => (false, cs)
  | cs => (false, cs)

/-- The exponent part of a decimal literal: nothing, or `e` and a signed integer. -/
def takeExponent : List Char → Option Int
  | [] => some 0
  | c :: cs =>
    if c = 'e' ∨ c = 'E' then
      let (negative, digits) := takeSign cs
      match takeDigits 0 0 digits with
      | (k, _ + 1, []) => some (if negative then -(k : Int) else k)
      | _ => none
    else none

/-- The fraction part of a decimal literal: nothing, or `.` and digits; the digits continue the coefficient. DESIGN
CHOICE (log 15): R67 gives no grammar, and here the digits after the point may be missing, as in `5.` and `5.e3`, which
read as `5` and `5e3`. -/
def takeFraction (acc : Nat) : List Char → Nat × Nat × List Char
  | '.' :: cs => takeDigits acc 0 cs
  | cs => (acc, 0, cs)

/-- `[sign] digits [. [digits]] [e [sign] digits]`: the whole part has a digit, so `.5` is no literal. DESIGN CHOICE
(log 15). -/
def parseDecimal (text : List Char) : Option Decimal :=
  let (negative, unsignedText) := takeSign text
  match takeDigits 0 0 unsignedText with
  | (_, 0, _) => none
  | (whole, _ + 1, rest) =>
    let (coefficient, places, tail) := takeFraction whole rest
    (takeExponent tail).map fun k =>
      { negative := negative, coefficient := coefficient, exponent := k - places }

/-- `⌊log₂ (num / den)⌋` for positive `num` and `den`. -/
def floorLog2 (num den : Nat) : Int :=
  let l : Int := (Nat.log2 num : Int) - Nat.log2 den
  if den * 2 ^ l.toNat ≤ num * 2 ^ (-l).toNat then l else l - 1

/-- `num / den` rounded to an integer, ties to even. -/
def roundHalfEven (num den : Nat) : Nat :=
  let q := num / den
  let r := num % den
  if 2 * r > den ∨ (2 * r = den ∧ q % 2 = 1) then q + 1 else q

/-- The pattern, sign bit clear, of the double nearest to `num / den`, ties to the even mantissa; from the middle of
the last gap on, infinity. With biased exponent `b` a pattern's value is its significand times `2^(b − 1075)`, and
the leading bit of the significand, when set, carries into the exponent field. -/
def nearestMagnitude (num den : Nat) : Nat :=
  if num = 0 then 0
  else
    let b := (max 1 (floorLog2 num den + Config.expBias)).toNat
    let pattern := (b - 1) * 2 ^ 52 + roundHalfEven (num * 2 ^ (1075 - b)) (den * 2 ^ (b - 1075))
    min pattern (Config.expMax * 2 ^ 52)

/-- The pattern of the double nearest to a decimal literal (R67). -/
def nearestDouble (x : Decimal) : Word :=
  let m := nearestMagnitude (x.coefficient * 10 ^ x.exponent.toNat) (10 ^ (-x.exponent).toNat)
  BitVec.ofNat 64 ((if x.negative then 2 ^ 63 else 0) + m)

/-- The pattern an operand stands for (R67). -/
def parseOperand (word : List Char) : Option Word :=
  if word = ['+', 'i', 'n', 'f'] then some 0x7FF0000000000000
  else if word = ['-', 'i', 'n', 'f'] then some 0xFFF0000000000000
  else if word = ['n', 'a', 'n'] then some 0x7FF8000000000000
  else
    match word with
    | '0' :: 'x' :: digits =>
      if digits.length = 16 then (hexNumber 0 digits).map (BitVec.ofNat 64) else none
    | _ => (parseDecimal word).map nearestDouble

/-- The `n` of `.op <n>`, one digit 0 to 7. -/
def parseOp : List Char → Option OpCode
  | [c] =>
    match decimalDigit c with
    | none => none
    | some k => if k < 8 then some (BitVec.ofNat 3 k) else none
  | _ => none

/-- The command word a line assembles to (R67); `none` where the line is not in the syntax. -/
def assembleLine (line : List Char) : Option CommandWord :=
  match splitWords [] (dropComment line) with
  | [['.', 'o', 'p'], n, operand] =>
    match parseOp n, parseOperand operand with
    | some op, some d => some (commandWord op d)
    | _, _ => none
  | [mnemonic, operand] =>
    match opOfMnemonic mnemonic, parseOperand operand with
    | some op, some d => some (commandWord op d)
    | _, _ => none
  | _ => none

/-- The digit that writes a value below 16, in upper case. -/
def hexChar (k : Nat) : Char := if k < 10 then Char.ofNat (48 + k) else Char.ofNat (55 + k)

/-- The last `n` hexadecimal digits of a number, most significant first. -/
def hexDigits : (n : Nat) → Nat → List Char
  | 0, _ => []
  | n + 1, v => hexDigits n (v / 16) ++ [hexChar (v % 16)]

/-- The operand in canonical form, `0x` and 16 digits (R67). -/
def canonicalOperand (d : Word) : List Char := '0' :: 'x' :: hexDigits 16 d.toNat

/-- The canonical line of an operation (R67). -/
def canonicalLine (i : Instr) : List Char := mnemonicText i ++ ' ' :: canonicalOperand i.operand

/-- The line that writes any op code, reserved ones included (R67). -/
def rawLine (op : OpCode) (d : Word) : List Char :=
  ['.', 'o', 'p', ' ', hexChar op.toNat, ' '] ++ canonicalOperand d

end Sys2Proof.Machine
end

