-- ==== Sys2Proof/Machine/Value.lean ====
section
/-! DEFINITION. What an operand means and what the operations owe it, as mathematics: `val(bits)` (00_scope.md R14), the
integer the fixed-width operations reduce (41_unsigned_converter.md R100) and truncation toward zero
(43_tointeger.md R141). The machine does not call these; statements hold the machine against them. -/

namespace Sys2Proof.Machine

/-- An extended real, or not a number (R14). -/
inductive Val where
  | finite (x : ℚ)
  | infinity (negative : Bool)
  | notANumber
  deriving DecidableEq

/-- `(−1)^s` (R14). -/
def signFactor (bits : Word) : Int := (-1) ^ (sign bits).toNat

/-- `val(bits)`, clause for clause (R14). -/
def val (bits : Word) : Val :=
  let b := (bexp bits).toNat
  let m := (mant bits).toNat
  if 1 ≤ b ∧ b ≤ 2046 then
    .finite ((signFactor bits : ℚ) * (1 + (m : ℚ) / 2 ^ 52) * (2 : ℚ) ^ ((b : ℤ) - 1023))
  else if b = 0 ∧ m = 0 then .finite 0
  else if b = 0 then .finite ((signFactor bits : ℚ) * ((m : ℚ) / 2 ^ 52) * (2 : ℚ) ^ (-1022 : ℤ))
  else if m = 0 then .infinity (sign bits == 1#1)
  else .notANumber

/-- The integer a fixed-width operation reduces: `(−1)^sign · floor(|val(bits)|)` for a finite operand, 0 by
convention for infinities and NaNs (R100). -/
def integerPart (bits : Word) : Int :=
  match val bits with
  | .finite x => signFactor bits * ⌊|x|⌋
  | .infinity _ => 0
  | .notANumber => 0

/-- Truncation toward zero as the document gives it: `ceil(x)` for negative x, `floor(x)` otherwise (R141). -/
def truncate (x : ℚ) : Int := if x < 0 then ⌈x⌉ else ⌊x⌋

end Sys2Proof.Machine
end

