-- ==== Sys2Proof/Machine/Flags.lean ====
section
/-! DEFINITION. The block has no flags (10_state.md R23). What stands in their place is the response port as wires:
`rsp_valid`, `rsp_ill`, `rsp_r` (R27), with a free value wherever R32 says the wire is unspecified. -/

namespace Sys2Proof.Machine

/-- The `ill` bit of one response; it belongs to that response alone (R23, 60_exceptions.md R175). -/
def Response.ill : Response → Bool
  | .result _ => false
  | .illegalOp _ => true

/-- `rsp_valid` in the cycle just run (R27). -/
def State.rspValid (s : State) : Bool := s.rsp.isSome

/-- `rsp_ill` in the cycle just run; unspecified while `rsp_valid` = 0 (R32). -/
def State.rspIll (s : State) : Bool :=
  match s.rsp with
  | some r => r.ill
  | none => Config.unspecifiedIll s.cycle

/-- `rsp_r` in the cycle just run; unspecified while `rsp_valid` = 0 and in a response with `ill` = 1 (R32). -/
def State.rspR (s : State) : Word :=
  match s.rsp with
  | some (.result r) => r
  | some (.illegalOp _) => Config.unspecifiedR s.cycle
  | none => Config.unspecifiedR s.cycle

/-- Every output port in the cycle just run (R27, 60_exceptions.md R181): it reads the response that has left the
slots, and of what was computed on the way to it nothing. -/
def State.portOut (s : State) : PortOut := { rspValid := s.rspValid, rspIll := s.rspIll, rspR := s.rspR }

/-- The response word `{ill, r}` on the port (30_encoding.md R69). -/
def State.rspWord (s : State) : ResponseWord := BitVec.ofBool s.rspIll ++ s.rspR

end Sys2Proof.Machine
end

