-- ==== Sys2Proof/Safety.lean ====
section
/-! DEFINITION. The terms statements about runs are in: running several cycles, the invariant of the machine, and the
windows of 70_reset_and_hazards.md R192. -/

namespace Sys2Proof.Machine

/-- `n` clock cycles, stopping at the first fault or refusal. -/
def runCycles : Nat → State → Host.Outcome State Fault Refusal
  | 0, s => .next s
  | n + 1, s =>
    match step s with
    | .next t => runCycles n t
    | .fault f => .fault f
    | .refused r => .refused r

/-- An IllegalOp response names an op code that is reserved in this instance (60_exceptions.md R171). -/
def Response.lawful (p : Config.Params) : Response → Bool
  | .result _ => true
  | .illegalOp op => reservedOp p op

/-- The response on the port, if there is one, is the last the requester has read. -/
def State.rspRecorded (s : State) : Bool :=
  match s.rsp with
  | none => true
  | some r => s.received.getLast? == some r

/-- The invariant of the machine: there are `LATENCY` in-flight slots (10_state.md R30), the port shows the newest of
the responses delivered (R28), and no response, in flight or delivered, reports IllegalOp for an op code the instance
has (60_exceptions.md R171). -/
abbrev State.Inv (s : State) : Prop :=
  s.slots.length = s.params.latency ∧
  s.rspRecorded = true ∧
  s.slots.all (fun slot => slot.all (Response.lawful s.params)) = true ∧
  s.received.all (Response.lawful s.params) = true

/-- No request is in flight: every slot's valid bit is 0 (10_state.md R31). -/
abbrev State.NothingInFlight (s : State) : Prop := s.slots.all Option.isNone = true

/-- The same instance built with `FASTPATH` = `b` (44_fastpath.md R162). -/
def State.withFastPath (b : Bool) (s : State) : State := { s with params := { s.params with fastPath := b } }

/-- `rst` = 0 in each of the next `n` cycles. -/
abbrev State.NoResetFor (n : Nat) (s : State) : Prop := (s.inputs.take n).all (fun pin => !pin.rst) = true

end Sys2Proof.Machine
end

