-- ==== Sys2Proof/Certificates/Slice0/Obligations.lean ====
section
/-! DEFINITION. The statements about the converter, each with the rule or section of spec/ it formalises. -/

open Sys2Proof Sys2Proof.Machine

/-! ## The command word (30_encoding.md) -/

/-- Decoder and encoder agree, for every instance and every command word: a word decodes to an operation exactly when
the instance has the operation and the word is its encoding (30_encoding.md sections 1 to 3). -/
def Obligations.DecodeAndEncodeAgree : Prop :=
  ∀ (p : Config.Params) (cw : CommandWord) (i : Instr),
    decode p cw = .ok i ↔ (i.wellFormed p = true ∧ encode i = cw)

/-- R64's list of reserved codes is exact: 5, 6, 7 always, 4 without option TI, whatever the operand
(30_encoding.md section 3). -/
def Obligations.ReservedCodesAreExactlyTheListed : Prop :=
  ∀ (p : Config.Params) (op : OpCode) (d : Word),
    decode p (commandWord op d) = .error (.reserved op) ↔
      (op = 5#3 ∨ op = 6#3 ∨ op = 7#3 ∨ (op = 4#3 ∧ p.hasToInteger = false))

/-- R62: with `op[2]` = 0, `op[1]` selects the width and `op[0]` the signedness, independently, both as the encoder
writes them and as the decoder reads them. -/
def Obligations.OpBitsSelectWidthAndSignedness : Prop :=
  (∀ (W : Width) (signed : Bool) (d : Word),
    let op := opField (encode (Instr.fixedWidth W signed d))
    op.getLsbD 2 = false ∧ (op.getLsbD 1 = true ↔ W = .w64) ∧ (op.getLsbD 0 = true ↔ signed = false)) ∧
  (∀ (p : Config.Params) (op : OpCode) (d : Word), op.getLsbD 2 = false →
    decode p (commandWord op d) =
      .ok (Instr.fixedWidth (if op.getLsbD 1 then .w64 else .w32) (!op.getLsbD 0) d))

/-- The rows of spec/opcode_table.json: a decoded word belongs to the row of its operation and to no other, and every
word of a row whose operation the instance has decodes to that row's operation. -/
def Obligations.DecoderFollowsTheOpcodeTable : Prop :=
  ∀ (p : Config.Params) (cw : CommandWord) (i : Instr),
    (decode p cw = .ok i →
      (tableRow i).hits cw = true ∧ ∀ j : Instr, (tableRow j).hits cw = true → opCode j = opCode i) ∧
    ((tableRow i).hits cw = true → i.wellFormed p = true →
      ∃ j : Instr, decode p cw = .ok j ∧ opCode j = opCode i ∧ j.operand = operandField cw)

/-- One word of each operation, from spec/95_test_vectors.md programs P1, P2, P4 and P5, decodes to that operation. -/
def Obligations.SampleWordsDecode : Prop :=
  decode tableParams 0x041E0000000000000 = .ok (.toint32 0x41E0000000000000) ∧
  decode tableParams 0x1BFF0000000000000 = .ok (.touint32 0xBFF0000000000000) ∧
  decode tableParams 0x2C19D6F3457000000 = .ok (.toint64 0xC19D6F3457000000) ∧
  decode tableParams 0x343F0000000000001 = .ok (.touint64 0x43F0000000000001) ∧
  decode tableParams 0x4C00599999999999A = .ok (.tointeger 0xC00599999999999A)

/-- R67: the canonical line of an operation assembles to its command word, and the `.op` form writes every op code
with every operand, reserved codes included (30_encoding.md section 4). -/
def Obligations.CanonicalLinesAssemble : Prop :=
  (∀ i : Instr, assembleLine (canonicalLine i) = some (encode i)) ∧
  (∀ (op : OpCode) (d : Word), assembleLine (rawLine op d) = some (commandWord op d))

/-! ## The operand (20_memory.md, 40_decomposer.md) -/

/-- R42: lane k of the pattern a requester drives is the byte at offset k for a little-endian requester and at offset
7 − k for a big-endian one. -/
def Obligations.ByteLanesOfTheOperand : Prop :=
  ∀ (bytes : List Byte) (k : Nat), bytes.length = 8 → k < 8 →
    lane (ofBytesLE bytes) k = bytes.getD k 0 ∧ lane (ofBytesBE bytes) k = bytes.getD (7 - k) 0

/-- R81: the 12-bit subtraction never wraps, so `e` is `bexp − 1023`; `e` takes exactly the values −1023 to 1024; zeros
and subnormals have −1023, infinities and NaNs 1024. -/
def Obligations.DecodedExponentNeverWraps : Prop :=
  (∀ bits : Word, expOf bits = ((bexp bits).toNat : Int) - 1023 ∧ -1023 ≤ expOf bits ∧ expOf bits ≤ 1024) ∧
  (∀ k : Int, -1023 ≤ k → k ≤ 1024 → ∃ bits : Word, expOf bits = k) ∧
  (∀ bits : Word, (isZero bits = true ∨ isSub bits = true) → expOf bits = -1023) ∧
  (∀ bits : Word, (isInf bits = true ∨ isNaN bits = true) → expOf bits = 1024)

/-- What SMALL holds (40_decomposer.md section 2): biased exponents up to 1022; among finite operands exactly those of
magnitude below 1, whose `floor(|val|)` is 0; every zero and every subnormal is one. -/
def Obligations.SmallIsMagnitudeBelowOne : Prop :=
  ∀ (W : Width) (bits : Word),
    (classOf W (expOf bits) = .small ↔ (bexp bits).toNat ≤ 1022) ∧
    (∀ x : ℚ, val bits = .finite x → (classOf W (expOf bits) = .small ↔ |x| < 1)) ∧
    (classOf W (expOf bits) = .small → ∃ x : ℚ, val bits = .finite x ∧ ⌊|x|⌋ = 0) ∧
    ((isZero bits = true ∨ isSub bits = true) → classOf W (expOf bits) = .small)

/-- What HUGE holds (40_decomposer.md section 2): biased exponents from 1075 + W; among finite operands exactly those
of magnitude at least 2^(52+W), which are integer multiples of 2^(e−52) and have `floor(|val|) mod 2^W` = 0; every
infinity and every NaN is one. -/
def Obligations.HugeIsZeroModuloTwoToTheW : Prop :=
  ∀ (W : Width) (bits : Word),
    (classOf W (expOf bits) = .huge ↔ 1075 + W.bits ≤ (bexp bits).toNat) ∧
    (∀ x : ℚ, val bits = .finite x → (classOf W (expOf bits) = .huge ↔ (2 : ℚ) ^ (52 + W.bits) ≤ |x|)) ∧
    (∀ x : ℚ, val bits = .finite x → classOf W (expOf bits) = .huge →
      (∃ k : Nat, |x| = (k : ℚ) * 2 ^ (expOf bits - 52).toNat) ∧ ⌊|x|⌋ % 2 ^ W.bits = 0) ∧
    ((isInf bits = true ∨ isNaN bits = true) → classOf W (expOf bits) = .huge)

/-- Every shift amount that class ALIGN forms is below the width of the value shifted (40_decomposer.md section 2; the
bound 93_implementation_defined.md U1 asks for). -/
def Obligations.ShiftAmountsAreBelowTheWidth : Prop :=
  ∀ (W : Width) (bits : Word), classOf W (expOf bits) = .align →
    0 ≤ expOf bits ∧ expOf bits ≤ 51 + W.bits ∧
    (expOf bits < 52 → 1 ≤ (52 - expOf bits).toNat ∧ (52 - expOf bits).toNat ≤ 52) ∧
    (52 < expOf bits → 1 ≤ (expOf bits - 52).toNat ∧ (expOf bits - 52).toNat ≤ W.bits - 1) ∧
    (expOf bits < W.bits → (expOf bits).toNat ≤ W.bits - 1)

/-! ## The converters (41_unsigned_converter.md, 42_signed_converter.md) -/

/-- R100: for every operand, `ToUintWidth_W` is `((−1)^sign · floor(|val|)) mod 2^W`, and 0 for infinities and NaNs. -/
def Obligations.UnsignedConverterMeetsTheContract : Prop :=
  ∀ (W : Width) (bits : Word),
    (∀ x : ℚ, val bits = .finite x →
      ((toUintWidth W bits).toNat : Int) = (signFactor bits * ⌊|x|⌋) % 2 ^ W.bits) ∧
    ((isInf bits = true ∨ isNaN bits = true) → toUintWidth W bits = 0)

/-- The wire `v` in class ALIGN is `floor(|val|) mod 2^W` (10_state.md section 3), and below e = W it is `floor(|val|)`
itself (41_unsigned_converter.md section 2). -/
def Obligations.MagnitudeWireIsTheFloorModuloTwoToTheW : Prop :=
  ∀ (W : Width) (bits : Word) (x : ℚ), classOf W (expOf bits) = .align → val bits = .finite x →
    ((magnitude W bits).toNat : Int) = ⌊|x|⌋ % 2 ^ W.bits ∧
    (expOf bits < W.bits → ((magnitude W bits).toNat : Int) = ⌊|x|⌋)

/-- The addition of step 5 never carries and equals the bitwise or (41_unsigned_converter.md section 2). -/
def Obligations.ImplicitBitAdditionNeverCarries : Prop :=
  ∀ (W : Width) (bits : Word), classOf W (expOf bits) = .align → expOf bits < W.bits →
    let kept := truncated W bits &&& (oneAt W bits - 1#W.bits)
    kept.toNat < (oneAt W bits).toNat ∧ kept.toNat + (oneAt W bits).toNat < 2 ^ W.bits ∧
    kept + oneAt W bits = kept ||| oneAt W bits

/-- R120: the signed result is the W-bit pattern of the unsigned one read as signed: `u` below 2^(W−1) and `u − 2^W`
from there on; so it is the integer in [−2^(W−1), 2^(W−1) − 1] congruent to `(−1)^sign · floor(|val|)`, and 0 for
non-finite operands. -/
def Obligations.SignedConverterMeetsTheContract : Prop :=
  ∀ (W : Width) (bits : Word),
    signedBits W bits = toUintWidth W bits ∧
    ((toUintWidth W bits).toNat < 2 ^ (W.bits - 1) → toIntWidth W bits = (toUintWidth W bits).toNat) ∧
    (2 ^ (W.bits - 1) ≤ (toUintWidth W bits).toNat →
      toIntWidth W bits = ((toUintWidth W bits).toNat : Int) - 2 ^ W.bits) ∧
    -2 ^ (W.bits - 1) ≤ toIntWidth W bits ∧ toIntWidth W bits ≤ 2 ^ (W.bits - 1) - 1 ∧
    (∀ x : ℚ, val bits = .finite x →
      toIntWidth W bits % 2 ^ W.bits = (signFactor bits * ⌊|x|⌋) % 2 ^ W.bits) ∧
    ((isInf bits = true ∨ isNaN bits = true) → toIntWidth W bits = 0)

/-- No intermediate value of the document's signed formula leaves the signed W-bit range (42_signed_converter.md
section 1). -/
def Obligations.SignedFormulaStaysInRange : Prop :=
  ∀ (W : Width) (u : Int), 2 ^ (W.bits - 1) ≤ u → u ≤ 2 ^ W.bits - 1 →
    1 ≤ u - maxValue W ∧ u - maxValue W ≤ 2 ^ (W.bits - 1) ∧
    minValue W + 1 ≤ minValue W + (u - maxValue W) ∧ minValue W + (u - maxValue W) ≤ 0 ∧
    minValue W ≤ reinterpretSigned W u ∧ reinterpretSigned W u ≤ -1 ∧
    reinterpretSigned W u = u - 2 ^ W.bits

/-- Signedness has one effect (42_signed_converter.md section 1): TOINT64 and TOUINT64 do the same thing in every
state, and TOINT32 and TOUINT32 answer with the same low 32 bits and differ exactly when bit 31 is 1. -/
def Obligations.SignednessOnlyChoosesTheExtension : Prop :=
  ∀ (d : Word) (s : State),
    exec (.toint64 d) s = exec (.touint64 d) s ∧
    ∃ r r' : Word, exec (.toint32 d) s = .next (s.answer (.result r)) ∧
      exec (.touint32 d) s = .next (s.answer (.result r')) ∧
      r.setWidth 32 = r'.setWidth 32 ∧ (r = r' ↔ r'.getLsbD 31 = false)

/-- R126: the properties the document gives as testable. NaN and the infinities convert to 0, 2147483648.0 to
−2147483648, 4294967297.0 to 1; whenever the truncated integer fits int32, TOINT32 and TOINT64 give equal `r`; at 2^31
they differ. -/
def Obligations.SignedConvertersAgreeOnInt32 : Prop :=
  (∀ d : Word, (isNaN d = true ∨ isInf d = true) → toIntWidth .w32 d = 0) ∧
  toIntWidth .w32 0x41E0000000000000 = -2147483648 ∧
  toIntWidth .w32 0x41F0000000100000 = 1 ∧
  (∀ (d : Word) (x : ℚ) (s : State), val d = .finite x →
    -2 ^ 31 ≤ signFactor d * ⌊|x|⌋ → signFactor d * ⌊|x|⌋ ≤ 2 ^ 31 - 1 →
    exec (.toint64 d) s = exec (.toint32 d) s) ∧
  (∀ s : State, exec (.toint32 0x41E0000000000000) s = .next (s.answer (.result 0xFFFFFFFF80000000)) ∧
    exec (.toint64 0x41E0000000000000) s = .next (s.answer (.result 0x0000000080000000)))

/-- The low 32 bits of TOUINT64 and of TOINT64 are the 32-bit result of TOUINT32, for every operand
(20_memory.md section 2). -/
def Obligations.LowHalfOfTheWideResult : Prop :=
  ∀ d : Word, (toUintWidth .w64 d).setWidth 32 = toUintWidth .w32 d ∧
    (signedBits .w64 d).setWidth 32 = toUintWidth .w32 d

/-! ## Option TI (43_tointeger.md) -/

/-- R141: zeros and infinities are unchanged, NaN gives +0, and every other operand is truncated toward zero, by `ceil`
below 0 and by `floor` above. -/
def Obligations.ToIntegerTruncatesTowardZero : Prop :=
  ∀ d : Word,
    (isZero d = true → toInteger d = d) ∧ (isNaN d = true → toInteger d = 0) ∧ (isInf d = true → toInteger d = d) ∧
    (∀ x : ℚ, val d = .finite x → val (toInteger d) = .finite (truncate x))

/-- The sign of every result but NaN's is the operand's; in particular operands in (−1, 0) give −0 and those in (0, 1)
give +0 (43_tointeger.md section 2). That −0 is the spec's own decision D13 (log 10), not the document's. -/
def Obligations.ToIntegerKeepsTheSign : Prop :=
  ∀ d : Word, isNaN d = false →
    sign (toInteger d) = sign d ∧
    (expOf d < 0 → toInteger d = if sign d = 1#1 then 0x8000000000000000 else 0x0000000000000000)

/-- A second application changes nothing, bit for bit and for every operand (43_tointeger.md section 4); a result is
never a NaN and never subnormal (section 3). -/
def Obligations.ToIntegerIsIdempotent : Prop :=
  ∀ d : Word, toInteger (toInteger d) = toInteger d ∧ isNaN (toInteger d) = false ∧ isSub (toInteger d) = false

/-- Truncating first changes no fixed-width result (43_tointeger.md section 4). -/
def Obligations.ToIntegerChangesNoConversion : Prop :=
  ∀ (W : Width) (d : Word),
    toUintWidth W (toInteger d) = toUintWidth W d ∧ toIntWidth W (toInteger d) = toIntWidth W d

/-! ## What each operation does to the machine -/

/-- TOUINT32 and TOUINT64 complete in every state, on every operand, with the truncated integer reduced modulo 2^W,
zero-extended (41_unsigned_converter.md section 3, 30_encoding.md section 5). -/
def Obligations.UnsignedOperationsAnswerTheCongruentValue : Prop :=
  ∀ (d : Word) (s : State),
    exec (.touint32 d) s = .next (s.answer (.result (BitVec.ofInt 64 (integerPart d % 2 ^ 32)))) ∧
    exec (.touint64 d) s = .next (s.answer (.result (BitVec.ofInt 64 (integerPart d % 2 ^ 64))))

/-- TOINT32 and TOINT64 complete in every state, on every operand, with the integer of [−2^(W−1), 2^(W−1) − 1] that is
congruent to the truncated integer modulo 2^W, sign-extended (42_signed_converter.md section 2, 30_encoding.md
section 5). -/
def Obligations.SignedOperationsAnswerTheCongruentValue : Prop :=
  ∀ (d : Word) (s : State),
    exec (.toint32 d) s = .next (s.answer (.result (BitVec.ofInt 64 ((integerPart d).bmod (2 ^ 32))))) ∧
    exec (.toint64 d) s = .next (s.answer (.result (BitVec.ofInt 64 ((integerPart d).bmod (2 ^ 64)))))

/-- TOINTEGER completes in every state of an instance with option TI, on every operand: NaN gives +0, infinities come
back, and a finite operand gives the double of the operand's sign whose value is the operand truncated toward zero
(43_tointeger.md sections 2 and 3; the sign of a zero result is the spec's decision D13, log 10). -/
def Obligations.TointegerAnswersTheTruncatedDouble : Prop :=
  ∀ (d : Word) (s : State), s.params.hasToInteger = true →
    ∃ r : Word, exec (.tointeger d) s = .next (s.answer (.result r)) ∧
      (isNaN d = true → r = 0) ∧ (isInf d = true → r = d) ∧
      (∀ x : ℚ, val d = .finite x → val r = .finite (truncate x) ∧ sign r = sign d)

/-- Without option TI, TOINTEGER raises IllegalOp(0b100), whatever its operand (43_tointeger.md sections 1 and 3). -/
def Obligations.TointegerWithoutTheOptionIsIllegal : Prop :=
  ∀ (d : Word) (s : State), s.params.hasToInteger = false →
    exec (.tointeger d) s = .next (s.answer (.illegalOp 0b100#3))

/-- The frame of all five operations (TOINT32, TOUINT32, TOINT64, TOUINT64, TOINTEGER): the build parameters and the
requester's side are untouched, every request in flight moves on one place unchanged, the one new entry is this
request's response, and the port shows what left the slots (10_state.md section 2). Two clauses are about fields of
the model and no rule of the spec: `cycle`, the index of the free values (log 4; the block has no counter), and
`received`, the requester's record (log 5). -/
def Obligations.OperationsChangeNothingElse : Prop :=
  ∀ (i : Instr) (s t : State), exec i s = .next t →
    t.params = s.params ∧ t.inputs = s.inputs ∧ t.cycle = s.cycle + 1 ∧
    t.received = s.received ++ t.rsp.toList ∧
    t.slots = (some (Exec s.params (opCode i) i.operand) :: s.slots).dropLast ∧
    t.rsp = s.slots.getLastD (some (Exec s.params (opCode i) i.operand))

/-- R170: for each defined op code and every `d` the response has `ill` = 0 and the result of the operation's rule; no
operand traps, stalls or withholds a response. -/
def Obligations.NoOperandMakesAnOperationFail : Prop :=
  ∀ (s : State) (op : OpCode) (d : Word) (rest : List PortIn),
    s.inputs = PortIn.present op d :: rest → reservedOp s.params op = false →
    step s = .next ({ s with inputs := rest }.answer (Exec s.params op d)) ∧
    (Exec s.params op d).ill = false

/-- R171: a request with a reserved op code, whatever its operand, is answered with `ill` = 1 at the normal time and in
the normal order, and changes nothing else: the cycle is the one a legal request would have had, but for its own
response. No defined operation raises it. -/
def Obligations.IllegalOpIsReportedInItsOwnResponse : Prop :=
  (∀ (s : State) (op : OpCode) (d : Word) (rest : List PortIn),
    s.inputs = PortIn.present op d :: rest → reservedOp s.params op = true →
    step s = .next ({ s with inputs := rest }.answer (.illegalOp op)) ∧ (Response.illegalOp op).ill = true) ∧
  (∀ (i : Instr) (s : State), i.wellFormed s.params = true →
    ∃ r : Word, exec i s = .next (s.answer (.result r)))

/-! ## Cycles -/

/-- When the request of the coming cycle decodes to an operation, the step is that operation's `exec` in the state
whose first cycle of inputs is used up. -/
def Obligations.StepRunsTheDecodedOperation : Prop :=
  ∀ (s : State) (op : OpCode) (d : Word) (rest : List PortIn) (i : Instr),
    s.inputs = PortIn.present op d :: rest → decode s.params (commandWord op d) = .ok i →
    step s = exec i { s with inputs := rest }

/-- No state stops the machine: every cycle is followed by a next state (93_implementation_defined.md part 1;
70_reset_and_hazards.md section 3). -/
def Obligations.EveryStepAnswersANextState : Prop := ∀ s : State, ∃ t : State, step s = .next t

/-- R190: in a cycle with `rst` = 1 no request is sampled, whatever the other inputs carry, every slot's valid bit is
cleared and `rsp_valid` is 0; one such cycle is a complete reset. R191: the build parameters stay. That what was read
stays read (`received`) is the model's choice, log 5, and that the requester's later inputs stay is log 1. -/
def Obligations.ResetCycleClearsEverySlot : Prop :=
  ∀ (s : State) (pin : PortIn) (rest : List PortIn), s.inputs = pin :: rest → pin.rst = true →
    ∃ t : State, step s = .next t ∧ t.slots = List.replicate s.params.latency none ∧ t.rspValid = false ∧
      t.received = s.received ∧ t.inputs = rest ∧ t.params = s.params

/-- `req_op` and `req_d` are ignored in a cycle with `req_valid` = 0 or `rst` = 1, whatever they carry (10_state.md
section 5). -/
def Obligations.UnsampledInputsAreIgnored : Prop :=
  ∀ (s : State) (pin pin' : PortIn) (rest : List PortIn),
    pin.rst = pin'.rst → pin.reqValid = pin'.reqValid → (pin.rst = true ∨ pin.reqValid = false) →
    step { s with inputs := pin :: rest } = step { s with inputs := pin' :: rest }

/-- After reset an instance has `LATENCY` slots, none of them valid, and shows no response, for every choice of the
build parameters; the baseline has `HAS_TOINTEGER` = 0 and `LATENCY` = 0 (10_state.md section 5, 00_scope.md
section 3). -/
def Obligations.ResetLeavesNothingInFlight : Prop :=
  (∀ p : Config.Params, (State.resetOf p).slots.length = p.latency ∧ (State.resetOf p).NothingInFlight ∧
    (State.resetOf p).rspValid = false ∧ (State.resetOf p).params = p) ∧
  State.reset.params.hasToInteger = false ∧ State.reset.params.latency = 0 ∧ State.reset.rspValid = false

/-- The invariant holds after reset, in every instance. Its clauses about `received` are about the model's field, log 5,
empty at reset. -/
def Obligations.ResetSatisfiesTheInvariant : Prop :=
  State.reset.Inv ∧ ∀ p : Config.Params, (State.resetOf p).Inv

/-- Every step keeps the invariant: `LATENCY` slots (10_state.md section 4), the port shows the newest response
delivered (recorded in `received`, the model's field, log 5), and IllegalOp is reported for reserved codes only
(60_exceptions.md section 1). -/
def Obligations.StepKeepsTheInvariant : Prop :=
  ∀ s t : State, s.Inv → step s = .next t → t.Inv

/-- R192: what the port shows `LATENCY` cycles after a cycle is the response to the request sampled in that cycle, if
`rst` = 0 in every cycle of the window, and nothing otherwise; for every instance and whatever came before or comes
in between. A cycle past the end of the requester's list has `rst` = 0 and no request (log 1). -/
def Obligations.AnsweredExactlyWhenNoResetInTheWindow : Prop :=
  ∀ s : State, s.Inv →
    (s.NoResetFor (s.params.latency + 1) →
      ∃ t : State, runCycles (s.params.latency + 1) s = .next t ∧ t.rsp = s.portIn.response s.params) ∧
    (¬ s.NoResetFor (s.params.latency + 1) →
      ∃ t : State, runCycles (s.params.latency + 1) s = .next t ∧ t.rsp = none)

/-- R47: for any inputs without a reset, from nothing in flight, the responses read are `Exec` of the requests, one
each, in the order in which they were presented, once the last has left; for every instance. The last `LATENCY` cycles
lie past the end of the requester's list, where it drives nothing, the model's choice log 1, and so nothing is in flight
after them; the responses read are the model's field `received`, log 5. -/
def Obligations.ResponsesAreExecOfTheRequestsInOrder : Prop :=
  ∀ s : State, s.Inv → s.NothingInFlight → s.NoResetFor s.inputs.length →
    ∃ t : State, runCycles (s.inputs.length + s.params.latency) s = .next t ∧
      t.received = s.received ++ s.inputs.filterMap (PortIn.response s.params) ∧ t.NothingInFlight

/-- R9: the response to a request depends on its op select, its operand and `HAS_TOINTEGER`, and on nothing else: two
instances of any latency and any `FASTPATH`, with any histories and any later requests, answer the same request
alike. A cycle past the end of the requester's list has `rst` = 0 and no request (log 1). -/
def Obligations.ResponseDependsOnTheRequestAlone : Prop :=
  ∀ (s s' : State) (op : OpCode) (d : Word), s.Inv → s'.Inv →
    s.params.hasToInteger = s'.params.hasToInteger →
    s.NoResetFor (s.params.latency + 1) → s'.NoResetFor (s'.params.latency + 1) →
    s.inputs.head? = some (PortIn.present op d) → s'.inputs.head? = some (PortIn.present op d) →
    ∃ (t t' : State) (r : Response),
      runCycles (s.params.latency + 1) s = .next t ∧ runCycles (s'.params.latency + 1) s' = .next t' ∧
      t.rsp = some r ∧ t'.rsp = some r

/-- R162: the response to every request, and every step, is the same for `FASTPATH` = 0 and `FASTPATH` = 1. -/
def Obligations.FastPathHasNoEffect : Prop :=
  ∀ (s t : State) (b : Bool), step s = .next t → step (s.withFastPath b) = .next (t.withFastPath b)

/-- A pipelined instance delivers the responses of the combinational one (70_reset_and_hazards.md section 4): the
latency changes when they arrive and nothing else. The cycles past the end of the requester's list present nothing, the
model's choice log 1, and the responses read are the model's field `received`, log 5. -/
def Obligations.LatencyChangesNoResponse : Prop :=
  ∀ (p : Config.Params) (ins : List PortIn), ins.all (fun pin => !pin.rst) = true →
    ∃ t t' : State,
      runCycles (ins.length + p.latency) { State.resetOf p with inputs := ins } = .next t ∧
      runCycles ins.length { State.resetOf { p with latency := 0 } with inputs := ins } = .next t' ∧
      t.received = t'.received

/-- R70 and R69 on the wires of a combinational instance: in the cycle of the request `rsp_valid` is 1, `rsp_ill` 0, and
`rsp_r`, read with the operation's signedness, is the operation's result (30_encoding.md section 5); for IllegalOp
`rsp_ill` is 1. -/
def Obligations.PortShowsTheResultInTheSameCycle : Prop :=
  ∀ (s : State) (d : Word), s.slots = [] →
    (∃ t, exec (.toint32 d) s = .next t ∧ t.rspValid = true ∧ t.rspIll = false ∧ t.rspR.toInt = toIntWidth .w32 d ∧
      t.rspWord.getLsbD 64 = false) ∧
    (∃ t, exec (.touint32 d) s = .next t ∧ t.rspValid = true ∧ t.rspIll = false ∧
      t.rspR.toNat = (toUintWidth .w32 d).toNat ∧ t.rspWord.getLsbD 64 = false) ∧
    (∃ t, exec (.toint64 d) s = .next t ∧ t.rspValid = true ∧ t.rspIll = false ∧ t.rspR.toInt = toIntWidth .w64 d ∧
      t.rspWord.getLsbD 64 = false) ∧
    (∃ t, exec (.touint64 d) s = .next t ∧ t.rspValid = true ∧ t.rspIll = false ∧
      t.rspR.toNat = (toUintWidth .w64 d).toNat ∧ t.rspWord.getLsbD 64 = false) ∧
    (s.params.hasToInteger = true → ∃ t, exec (.tointeger d) s = .next t ∧ t.rspValid = true ∧ t.rspIll = false ∧
      t.rspR = toInteger d ∧ t.rspWord.getLsbD 64 = false) ∧
    (∀ op, ∃ t, raiseIllegalOp op s = .next t ∧ t.rspValid = true ∧ t.rspIll = true ∧
      t.rspWord.getLsbD 64 = true)

/-- R181: the intermediate signals of 10_state.md section 3 are at no port. Two requests with the same response, however
their signals differ, give the same next state, so every port is the same from then on; and in the cycle of a result
the three output ports are fixed by `r` alone. -/
def Obligations.IntermediateSignalsReachNoPort : Prop :=
  (∀ (s : State) (op op' : OpCode) (d d' : Word) (rest : List PortIn),
    Exec s.params op d = Exec s.params op' d' →
    ∃ t : State, step { s with inputs := PortIn.present op d :: rest } = .next t ∧
      step { s with inputs := PortIn.present op' d' :: rest } = .next t) ∧
  (∀ (s : State) (r : Word), s.rsp = some (.result r) →
    s.portOut = { rspValid := true, rspIll := false, rspR := r })
end

