-- ==== Sys2Proof/Laws/Asm.lean ====
section
/-! SUPPORT. Hexadecimal digits and words of an assembler line (30_encoding.md R67). -/

namespace Sys2Proof.Machine

theorem hexDigit_hexChar (k : Nat) (h : k < 16) : hexDigit (hexChar k) = some k := by
  revert k
  decide

theorem hexNumber_append (a b : List Char) :
    ∀ acc, hexNumber acc (a ++ b) = (hexNumber acc a).bind (fun x => hexNumber x b) := by
  induction a with
  | nil => intro acc; rfl
  | cons c cs ih =>
    intro acc
    simp only [List.cons_append, hexNumber]
    cases hexDigit c <;> simp [ih]

@[simp] theorem hexDigits_length (n v : Nat) : (hexDigits n v).length = n := by
  induction n generalizing v with
  | zero => rfl
  | succ n ih => simp [hexDigits, ih]

theorem dropComment_of_no_semicolon (l : List Char) (h : l.all (· != ';') = true) : dropComment l = l := by
  induction l with
  | nil => rfl
  | cons c cs ih =>
    simp only [List.all_cons, Bool.and_eq_true, bne_iff_ne] at h
    simp [dropComment, h.1, ih h.2]

theorem splitWords_end (current : List Char) (h : current ≠ []) : splitWords current [] = [current.reverse] := by
  cases current with
  | nil => contradiction
  | cons c cs => rfl

end Sys2Proof.Machine
end

