-- ==== Sys2Proof/Laws/Operands.lean ====
section
/-! SUPPORT. The decomposer and the classes in numbers: what later proofs use in place of the bit vectors. -/

namespace Sys2Proof.Machine

/-- The fields tile the pattern (20_memory.md R41). -/
theorem toNat_fields (bits : Word) :
    bits.toNat = 2 ^ 63 * (sign bits).toNat + 2 ^ 52 * (bexp bits).toNat + (mant bits).toNat := by
  simp only [sign, bexp, mant, BitVec.extractLsb'_toNat, Nat.shiftRight_eq_div_pow]
  have := bits.isLt
  omega

theorem sign_eq_zero_or_one (bits : Word) : sign bits = 0#1 ∨ sign bits = 1#1 := by
  generalize sign bits = s
  revert s
  decide

theorem bexp_le (bits : Word) : (bexp bits).toNat ≤ 2047 := by have := (bexp bits).isLt; omega

theorem mant_lt (bits : Word) : (mant bits).toNat < 2 ^ 52 := (mant bits).isLt

/-- The decoded exponent in numbers (40_decomposer.md R81). -/
theorem expOf_eq (bits : Word) : expOf bits = ((bexp bits).toNat : Int) - 1023 := by
  have h := bexp_le bits
  unfold expOf decodedExp
  generalize bexp bits = b at *
  rw [BitVec.toInt_sub, BitVec.toInt_eq_toNat_bmod, BitVec.toNat_setWidth]
  simp only [Config.expBias]
  have : (BitVec.ofNat 12 1023).toInt = 1023 := by decide
  rw [this]
  simp only [Int.bmod_def]
  omega

/-- A pattern made of a biased exponent alone has that exponent. The factor stands as a variable: the kernel would
otherwise unfold the power. -/
theorem bexp_ofNat (n p : Nat) (hn : n < 2048) (hp : p = 2 ^ 52) : (bexp (BitVec.ofNat 64 (n * p))).toNat = n := by
  have h1 : n * p < 2 ^ 64 := by subst hp; omega
  have h2 : 0 < p := by subst hp; decide
  simp only [bexp, BitVec.extractLsb'_toNat, Nat.shiftRight_eq_div_pow, BitVec.toNat_ofNat]
  rw [← hp, Nat.mod_eq_of_lt h1, Nat.mul_div_cancel _ h2]
  exact Nat.mod_eq_of_lt (by omega)

theorem classOf_small (W : Width) (e : Int) : classOf W e = .small ↔ e < 0 := by
  by_cases h : e < 0
  · simp [classOf, h]
  · by_cases h' : e ≥ Config.expShift + W.bits <;> simp [classOf, h, h']

theorem classOf_huge (W : Width) (e : Int) : classOf W e = .huge ↔ 52 + (W.bits : Int) ≤ e := by
  unfold classOf Config.expShift
  have : (0 : Int) ≤ W.bits := by positivity
  split
  · simp; omega
  · split <;> simp_all

theorem classOf_align (W : Width) (e : Int) : classOf W e = .align ↔ 0 ≤ e ∧ e < 52 + (W.bits : Int) := by
  unfold classOf Config.expShift
  split
  · simp; omega
  · split <;> simp_all

/-- Outside class ALIGN the unsigned converter gives 0, whatever the sign and the mantissa. -/
theorem toUintWidth_not_align (W : Width) (bits : Word) (h : classOf W (expOf bits) ≠ .align) :
    toUintWidth W bits = 0#W.bits := by
  unfold toUintWidth
  cases hc : classOf W (expOf bits) <;> simp_all

theorem toUintWidth_align (W : Width) (bits : Word) (h : classOf W (expOf bits) = .align) :
    toUintWidth W bits = signCorrected W bits := by
  simp [toUintWidth, h]

theorem isZero_iff (bits : Word) : isZero bits = true ↔ (bexp bits).toNat = 0 ∧ (mant bits).toNat = 0 := by
  simp [isZero, BitVec.toNat_eq]

theorem isSub_iff (bits : Word) : isSub bits = true ↔ (bexp bits).toNat = 0 ∧ (mant bits).toNat ≠ 0 := by
  simp [isSub, BitVec.toNat_eq]

theorem isInf_iff (bits : Word) : isInf bits = true ↔ (bexp bits).toNat = 2047 ∧ (mant bits).toNat = 0 := by
  simp [isInf, BitVec.toNat_eq]

theorem isNaN_iff (bits : Word) : isNaN bits = true ↔ (bexp bits).toNat = 2047 ∧ (mant bits).toNat ≠ 0 := by
  simp [isNaN, BitVec.toNat_eq]

end Sys2Proof.Machine
end

