-- ==== Sys2Proof/Laws/Converter.lean ====
section
/-! SUPPORT. The wires of the converter as natural numbers (10_state.md R29): one lemma per wire in class ALIGN, in terms
of the mantissa and the exponent, and the fields of what TOINTEGER builds. -/

namespace Sys2Proof.Machine

/-- The whole number below `(2^52 + m) · 2^(e − 52)`: the magnitude an operand with mantissa `m` and exponent `e` has. -/
def wholePart (m e : Nat) : Nat := if 52 ≤ e then (2 ^ 52 + m) * 2 ^ (e - 52) else (2 ^ 52 + m) / 2 ^ (52 - e)

/-- The share of the stored mantissa in it, without the implicit bit. -/
def mantissaPart (m e : Nat) : Nat := if 52 ≤ e then m * 2 ^ (e - 52) else m / 2 ^ (52 - e)

theorem wholePart_eq (m e : Nat) : wholePart m e = 2 ^ e + mantissaPart m e := by
  unfold wholePart mantissaPart
  split
  · rw [Nat.add_mul, ← Nat.pow_add]
    congr 2
    omega
  · have h : 2 ^ 52 = 2 ^ (52 - e) * 2 ^ e := by
      rw [← Nat.pow_add]
      congr 1
      omega
    rw [h, Nat.mul_add_div (by positivity)]

theorem mantissaPart_lt (m e : Nat) (h : m < 2 ^ 52) : mantissaPart m e < 2 ^ e := by
  unfold mantissaPart
  split
  · calc m * 2 ^ (e - 52) < 2 ^ 52 * 2 ^ (e - 52) := by gcongr
      _ = 2 ^ e := by
        rw [← Nat.pow_add]
        congr 1
        omega
  · rw [Nat.div_lt_iff_lt_mul (by positivity), ← Nat.pow_add]
    calc m < 2 ^ 52 := h
      _ = 2 ^ (e + (52 - e)) := by
        congr 1
        omega

theorem wholePart_lt (m e : Nat) (h : m < 2 ^ 52) : wholePart m e < 2 ^ (e + 1) := by
  have := mantissaPart_lt m e h
  rw [wholePart_eq, Nat.pow_succ]
  omega

/-- Sign and exponent field stand above the 52 mantissa bits. -/
theorem toNat_above_mantissa (bits : Word) : ∃ q, bits.toNat = 2 ^ 52 * q + (mant bits).toNat :=
  ⟨2 ^ 11 * (sign bits).toNat + (bexp bits).toNat, by rw [toNat_fields]; ring⟩

/-- `sh`: the aligned mantissa below position `e`, the fields above it (41_unsigned_converter.md R102). -/
theorem alignShift_toNat (bits : Word) (e : Nat) (he : expOf bits = e) :
    ∃ q, (alignShift bits).toNat = (2 ^ e * q + mantissaPart (mant bits).toNat e) % 2 ^ 64 := by
  obtain ⟨q, hq⟩ := toNat_above_mantissa bits
  refine ⟨q, ?_⟩
  unfold alignShift mantissaPart
  simp only [he, Config.expShift]
  have hlt := bits.isLt
  by_cases hgt : 52 < e
  · have hamount : ((e : Int) - (52 : Nat)).toNat = e - 52 := by omega
    have hpow : 2 ^ e = 2 ^ 52 * 2 ^ (e - 52) := by
      rw [← Nat.pow_add]
      congr 1
      omega
    rw [if_pos (by omega), if_pos (by omega), BitVec.toNat_shiftLeft, Nat.shiftLeft_eq, hq, hamount, Nat.add_mul, hpow]
    congr 2
    ring
  · rw [if_neg (by omega)]
    by_cases hlt52 : e < 52
    · have hamount : ((52 : Nat) - (e : Int)).toNat = 52 - e := by omega
      have hpow : 2 ^ 52 = 2 ^ (52 - e) * 2 ^ e := by
        rw [← Nat.pow_add]
        congr 1
        omega
      have hdiv : bits.toNat / 2 ^ (52 - e) = 2 ^ e * q + (mant bits).toNat / 2 ^ (52 - e) := by
        rw [hq]
        conv_lhs => rw [hpow, Nat.mul_assoc, Nat.mul_add_div (by positivity)]
      rw [if_pos (by omega), if_neg (by omega), BitVec.toNat_ushiftRight, Nat.shiftRight_eq_div_pow, hamount,
        ← hdiv, Nat.mod_eq_of_lt (lt_of_le_of_lt (Nat.div_le_self _ _) hlt)]
    · have h52 : e = 52 := by omega
      subst h52
      rw [if_neg (by omega), if_pos (by omega)]
      simp only [Nat.sub_self, Nat.pow_zero, Nat.mul_one]
      rw [← hq, Nat.mod_eq_of_lt hlt]

/-- `t` is `sh` modulo 2^W. -/
theorem truncated_toNat (W : Width) (bits : Word) (e : Nat) (he : expOf bits = e) :
    ∃ q, (truncated W bits).toNat = (2 ^ e * q + mantissaPart (mant bits).toNat e) % 2 ^ W.bits := by
  obtain ⟨q, hq⟩ := alignShift_toNat bits e he
  refine ⟨q, ?_⟩
  rw [truncated, BitVec.toNat_setWidth, hq]
  exact Nat.mod_mod_of_dvd _ (pow_dvd_pow 2 (by cases W <;> decide))

theorem toNat_one (W : Width) : (1#W.bits).toNat = 1 := by cases W <;> rfl

/-- `one` has bit `e` set and no other (R103). -/
theorem oneAt_toNat (W : Width) (bits : Word) (e : Nat) (he : expOf bits = e) (h : e < W.bits) :
    (oneAt W bits).toNat = 2 ^ e := by
  rw [oneAt, BitVec.toNat_shiftLeft, he, Nat.shiftLeft_eq, toNat_one, Nat.one_mul]
  simp only [Int.toNat_natCast]
  exact Nat.mod_eq_of_lt (Nat.pow_lt_pow_right (by omega) h)

/-- The mask of step 5 leaves the aligned mantissa (R103). -/
theorem masked_toNat (W : Width) (bits : Word) (e : Nat) (he : expOf bits = e) (h : e < W.bits) :
    (truncated W bits &&& (oneAt W bits - 1#W.bits)).toNat = mantissaPart (mant bits).toNat e := by
  obtain ⟨q, hq⟩ := truncated_toNat W bits e he
  have hone := oneAt_toNat W bits e he h
  have hmask : (oneAt W bits - 1#W.bits).toNat = 2 ^ e - 1 := by
    rw [BitVec.toNat_sub_of_le, hone, toNat_one]
    rw [BitVec.le_def, toNat_one, hone]
    exact Nat.one_le_two_pow
  rw [BitVec.toNat_and, hmask, Nat.and_two_pow_sub_one_eq_mod, hq, Nat.mod_mod_of_dvd _ (pow_dvd_pow 2 h.le),
    Nat.mul_add_mod, Nat.mod_eq_of_lt (mantissaPart_lt _ _ (mant_lt bits))]

/-- `v` is the whole part modulo 2^W. -/
theorem magnitude_toNat (W : Width) (bits : Word) (e : Nat) (he : expOf bits = e) :
    (magnitude W bits).toNat = wholePart (mant bits).toNat e % 2 ^ W.bits := by
  unfold magnitude
  by_cases h : e < W.bits
  · rw [if_pos (by omega), BitVec.toNat_add, masked_toNat W bits e he h, oneAt_toNat W bits e he h, wholePart_eq,
      Nat.add_comm]
  · obtain ⟨q, hq⟩ := truncated_toNat W bits e he
    have hpow : 2 ^ e = 2 ^ W.bits * 2 ^ (e - W.bits) := by
      rw [← Nat.pow_add]
      congr 1
      omega
    rw [if_neg (by omega), hq, wholePart_eq, hpow, Nat.mul_assoc, Nat.mul_add_mod, Nat.mul_add_mod]

/-- From 2^(52+W) on the whole part is 0 modulo 2^W (40_decomposer.md R84). -/
theorem wholePart_huge (W : Width) (m e : Nat) (h : 52 + W.bits ≤ e) : wholePart m e % 2 ^ W.bits = 0 := by
  unfold wholePart
  rw [if_pos (by omega)]
  exact Nat.mod_eq_zero_of_dvd (Dvd.dvd.mul_left (pow_dvd_pow 2 (by omega)) _)

/-- A pattern is its three fields. -/
theorem eq_of_fields {a b : Word} (hs : sign a = sign b) (he : bexp a = bexp b) (hm : mant a = mant b) : a = b := by
  apply BitVec.eq_of_toNat_eq
  rw [toNat_fields, toNat_fields b, hs, he, hm]

theorem expOf_congr {a b : Word} (h : bexp a = bexp b) : expOf a = expOf b := by rw [expOf_eq, expOf_eq, h]

theorem signedZero_eq (d : Word) :
    signedZero d = if sign d = 1#1 then 0x8000000000000000#64 else 0x0000000000000000#64 := by
  unfold signedZero
  rcases sign_eq_zero_or_one d with h | h <;> rw [h] <;> decide

theorem signedZero_fields (d : Word) :
    sign (signedZero d) = sign d ∧ bexp (signedZero d) = 0 ∧ mant (signedZero d) = 0 := by
  rw [signedZero_eq]
  rcases sign_eq_zero_or_one d with h | h <;> rw [h] <;> decide

/-- Clearing the low `k` bits rounds down to a multiple of 2^k. -/
theorem clearLow_toNat (d : Word) (k : Nat) (hk : k ≤ 52) : (clearLow d k).toNat = d.toNat / 2 ^ k * 2 ^ k := by
  have hmask : ((1#64 <<< k) - 1#64).toNat = 2 ^ k - 1 := by
    have hone : (1#64 <<< k).toNat = 2 ^ k := by
      rw [BitVec.toNat_shiftLeft, Nat.shiftLeft_eq, show (1#64).toNat = 1 from rfl, Nat.one_mul]
      exact Nat.mod_eq_of_lt (Nat.pow_lt_pow_right (by omega) (by omega))
    rw [BitVec.toNat_sub_of_le, hone]
    · rfl
    · rw [BitVec.le_def, hone]
      exact Nat.one_le_two_pow
  have hlow : (d &&& ((1#64 <<< k) - 1#64)).toNat = d.toNat % 2 ^ k := by
    rw [BitVec.toNat_and, hmask, Nat.and_two_pow_sub_one_eq_mod]
  have hsplit : clearLow d k + (d &&& ((1#64 <<< k) - 1#64)) = d := by
    unfold clearLow
    generalize (1#64 <<< k) - 1#64 = x
    rw [BitVec.add_eq_or_of_and_eq_zero]
    · apply BitVec.eq_of_getLsbD_eq
      intro i hi
      simp [hi]
      cases d[i] <;> cases x[i] <;> rfl
    · apply BitVec.eq_of_getLsbD_eq
      intro i hi
      simp [hi]
      intro _ _ _
      assumption
  have hle : (clearLow d k).toNat ≤ d.toNat := by
    unfold clearLow
    rw [BitVec.toNat_and]
    exact Nat.and_le_left
  have hsum := congrArg BitVec.toNat hsplit
  rw [BitVec.toNat_add, hlow] at hsum
  have hdm := Nat.div_add_mod d.toNat (2 ^ k)
  have hlt := d.isLt
  have hmod : d.toNat % 2 ^ k ≤ d.toNat := Nat.mod_le _ _
  have hexact : (clearLow d k).toNat + d.toNat % 2 ^ k = d.toNat := by
    by_cases hh : (clearLow d k).toNat + d.toNat % 2 ^ k < 2 ^ 64
    · rw [Nat.mod_eq_of_lt hh] at hsum
      exact hsum
    · rw [Nat.mod_eq_sub_mod (by omega), Nat.mod_eq_of_lt (by omega)] at hsum
      omega
  rw [Nat.mul_comm]
  omega

/-- Clearing at most 52 low bits touches the mantissa alone (43_tointeger.md R142). -/
theorem clearLow_fields (d : Word) (k : Nat) (hk : k ≤ 52) :
    sign (clearLow d k) = sign d ∧ bexp (clearLow d k) = bexp d ∧
      (mant (clearLow d k)).toNat = (mant d).toNat / 2 ^ k * 2 ^ k := by
  have h := clearLow_toNat d k hk
  rw [toNat_fields, toNat_fields d] at h
  have ha := mant_lt (clearLow d k)
  have hb := mant_lt d
  have h52 : 2 ^ 52 = 2 ^ k * 2 ^ (52 - k) := by
    rw [← Nat.pow_add]
    congr 1
    omega
  have h63 : 2 ^ 63 = 2 ^ k * (2 ^ (52 - k) * 2 ^ 11) := by
    rw [← Nat.mul_assoc, ← h52]
    norm_num
  have hfields : (2 ^ 63 * (sign d).toNat + 2 ^ 52 * (bexp d).toNat + (mant d).toNat) / 2 ^ k * 2 ^ k =
      2 ^ 63 * (sign d).toNat + 2 ^ 52 * (bexp d).toNat + (mant d).toNat / 2 ^ k * 2 ^ k := by
    conv_lhs => rw [h63, h52, Nat.mul_assoc, Nat.mul_assoc (2 ^ k), ← Nat.mul_add, Nat.mul_add_div (by positivity),
      Nat.add_mul]
    rw [h63]
    conv_rhs => rw [h52]
    ring
  rw [hfields] at h
  have hc : (mant d).toNat / 2 ^ k * 2 ^ k ≤ (mant d).toNat := Nat.div_mul_le_self _ _
  have s1 := (sign d).isLt
  have s2 := (sign (clearLow d k)).isLt
  have b1 := (bexp d).isLt
  have b2 := (bexp (clearLow d k)).isLt
  generalize (mant d).toNat / 2 ^ k * 2 ^ k = cleared at *
  clear hfields h52 h63
  refine ⟨BitVec.eq_of_toNat_eq ?_, BitVec.eq_of_toNat_eq ?_, ?_⟩ <;> omega

/-- The branches of ToInteger (R142): NaN; unchanged; a signed zero; the fraction bits cleared. -/
theorem toInteger_cases (d : Word) :
    (isNaN d = true ∧ toInteger d = 0) ∨
    (isNaN d = false ∧ toInteger d = d ∧ (isZero d = true ∨ isInf d = true ∨ (52 ≤ expOf d ∧ expOf d ≤ 1023))) ∨
    (isZero d = false ∧ expOf d < 0 ∧ isNaN d = false ∧ toInteger d = signedZero d) ∨
    (∃ e : Nat, expOf d = e ∧ e < 52 ∧ isNaN d = false ∧ toInteger d = clearLow d (52 - e)) := by
  have hz := isZero_iff d
  have hn := isNaN_iff d
  have hi := isInf_iff d
  have he := expOf_eq d
  have hb := bexp_le d
  unfold toInteger
  by_cases h1 : isZero d = true
  · refine .inr (.inl ⟨?_, by rw [if_pos h1], .inl h1⟩)
    have := hz.1 h1
    by_contra hc
    have := hn.1 (by simpa using hc)
    omega
  rw [if_neg h1]
  by_cases h2 : isNaN d = true
  · exact .inl ⟨h2, by rw [if_pos h2]; rfl⟩
  rw [if_neg h2]
  by_cases h3 : isInf d = true
  · exact .inr (.inl ⟨by simpa using h2, by rw [if_pos h3], .inr (.inl h3)⟩)
  rw [if_neg h3]
  by_cases h4 : expOf d < 0
  · exact .inr (.inr (.inl ⟨by simpa using h1, h4, by simpa using h2, by rw [if_pos h4]⟩))
  rw [if_neg h4]
  by_cases h5 : expOf d ≥ 52
  · refine .inr (.inl ⟨by simpa using h2, by rw [if_pos (by simpa [Config.expShift] using h5)], .inr (.inr ⟨h5, ?_⟩)⟩)
    by_contra hc
    have hmax : (bexp d).toNat = 2047 := by omega
    by_cases hm : (mant d).toNat = 0
    · exact h3 (hi.2 ⟨hmax, hm⟩)
    · exact h2 (hn.2 ⟨hmax, hm⟩)
  · refine .inr (.inr (.inr ⟨(expOf d).toNat, by omega, by omega, by simpa using h2, ?_⟩))
    rw [if_neg (by simpa [Config.expShift] using h5)]
    congr 1
    simp only [Config.expShift]
    omega

end Sys2Proof.Machine
end

