-- ==== Sys2Proof/Laws/Encoding.lean ====
section
/-! SUPPORT. The fields of a command word, and what the decoder can answer. -/

namespace Sys2Proof

/-- Bit i of a command word: of the operand below 64, of the op code from there on. -/
theorem commandWord_getLsbD (op : OpCode) (d : Word) (i : Nat) :
    (commandWord op d).getLsbD i = if i < 64 then d.getLsbD i else op.getLsbD (i - 64) := by
  rw [show (commandWord op d).getLsbD i = (op ++ d).getLsbD i from rfl, BitVec.getLsbD_append]

@[simp] theorem opField_commandWord (op : OpCode) (d : Word) : opField (commandWord op d) = op := by
  apply BitVec.eq_of_getLsbD_eq
  intro i hi
  simp [opField, commandWord_getLsbD, hi]

@[simp] theorem operandField_commandWord (op : OpCode) (d : Word) : operandField (commandWord op d) = d := by
  apply BitVec.eq_of_getLsbD_eq
  intro i hi
  simp [operandField, commandWord_getLsbD, hi]

theorem commandWord_fields (cw : CommandWord) : commandWord (opField cw) (operandField cw) = cw := by
  apply BitVec.eq_of_getLsbD_eq
  intro i hi
  by_cases h : i < 64
  · simp [commandWord_getLsbD, operandField, h]
  · have h3 : i - 64 < 3 := by omega
    have h64 : 64 + (i - 64) = i := by omega
    simp [commandWord_getLsbD, opField, h, h3, h64]

/-- What the decoder can answer: an operation with the word's op code and operand, or the reserved code by name. -/
theorem decode_cases (p : Config.Params) (cw : CommandWord) :
    (∃ i, decode p cw = .ok i ∧ opCode i = opField cw ∧ i.operand = operandField cw ∧ i.wellFormed p = true) ∨
    (decode p cw = .error (.reserved (opField cw)) ∧ reservedOp p (opField cw) = true) := by
  unfold decode
  generalize opField cw = op
  generalize operandField cw = d
  by_cases h0 : op = 0#3
  · exact .inl ⟨.toint32 d, by simp [h0, opCode, Instr.operand, Instr.wellFormed]⟩
  by_cases h1 : op = 1#3
  · exact .inl ⟨.touint32 d, by simp [h1, opCode, Instr.operand, Instr.wellFormed]⟩
  by_cases h2 : op = 2#3
  · exact .inl ⟨.toint64 d, by simp [h2, opCode, Instr.operand, Instr.wellFormed]⟩
  by_cases h3 : op = 3#3
  · exact .inl ⟨.touint64 d, by simp [h3, opCode, Instr.operand, Instr.wellFormed]⟩
  by_cases h4 : op = 4#3 ∧ p.hasToInteger = true
  · exact .inl ⟨.tointeger d, by simp [h4.1, h4.2, opCode, Instr.operand, Instr.wellFormed]⟩
  refine .inr ⟨by simp [h0, h1, h2, h3, h4], ?_⟩
  unfold reservedOp
  generalize p.hasToInteger = ti at *
  revert op ti
  decide

end Sys2Proof
end

