-- ==== Sys2Proof/Laws/PerInstr.lean ====
section
/-! SUPPORT. The family EncodedFields: the fields of every operation's command word (30_encoding.md R60, R61, R63). -/

namespace Sys2Proof.Laws.EncodedFields

/-- The word of `i` has the op code of `i` in bits 66:64 and its operand, verbatim, in bits 63:0, and its op code is
reserved in no instance that has the operation. -/
def Statement (i : Instr) : Prop :=
  opField (encode i) = opCode i ∧ operandField (encode i) = i.operand ∧
    ∀ p : Config.Params, i.wellFormed p = true → reservedOp p (opCode i) = false

theorem toint32 (d : Word) : Statement (.toint32 d) :=
  ⟨opField_commandWord _ _, operandField_commandWord _ _, fun p _ => by simp [opCode, reservedOp]⟩

theorem touint32 (d : Word) : Statement (.touint32 d) :=
  ⟨opField_commandWord _ _, operandField_commandWord _ _, fun p _ => by simp [opCode, reservedOp]⟩

theorem toint64 (d : Word) : Statement (.toint64 d) :=
  ⟨opField_commandWord _ _, operandField_commandWord _ _, fun p _ => by simp [opCode, reservedOp]⟩

theorem touint64 (d : Word) : Statement (.touint64 d) :=
  ⟨opField_commandWord _ _, operandField_commandWord _ _, fun p _ => by simp [opCode, reservedOp]⟩

theorem tointeger (d : Word) : Statement (.tointeger d) :=
  ⟨opField_commandWord _ _, operandField_commandWord _ _, fun p h => by
    simp only [Instr.wellFormed] at h
    simp [opCode, reservedOp, h]⟩

end Sys2Proof.Laws.EncodedFields
end

