-- ==== Sys2Proof/Laws/State.lean ====
section
/-! SUPPORT. One lemma per field per update of State, each true by rfl, so that no later proof unfolds a record update. -/

namespace Sys2Proof.Machine

@[simp] theorem State.dropInput_params (s : State) : s.dropInput.params = s.params := rfl
@[simp] theorem State.dropInput_inputs (s : State) : s.dropInput.inputs = s.inputs.tail := rfl
@[simp] theorem State.dropInput_slots (s : State) : s.dropInput.slots = s.slots := rfl
@[simp] theorem State.dropInput_rsp (s : State) : s.dropInput.rsp = s.rsp := rfl
@[simp] theorem State.dropInput_received (s : State) : s.dropInput.received = s.received := rfl
@[simp] theorem State.dropInput_cycle (s : State) : s.dropInput.cycle = s.cycle := rfl

@[simp] theorem State.clock_params (x : Option Response) (s : State) : (s.clock x).params = s.params := rfl
@[simp] theorem State.clock_inputs (x : Option Response) (s : State) : (s.clock x).inputs = s.inputs := rfl
@[simp] theorem State.clock_slots (x : Option Response) (s : State) :
    (s.clock x).slots = (x :: s.slots).dropLast := rfl
@[simp] theorem State.clock_rsp (x : Option Response) (s : State) : (s.clock x).rsp = s.slots.getLastD x := rfl
@[simp] theorem State.clock_received (x : Option Response) (s : State) :
    (s.clock x).received = s.received ++ (s.slots.getLastD x).toList := rfl
@[simp] theorem State.clock_cycle (x : Option Response) (s : State) : (s.clock x).cycle = s.cycle + 1 := rfl

@[simp] theorem State.answer_params (r : Response) (s : State) : (s.answer r).params = s.params := rfl
@[simp] theorem State.answer_inputs (r : Response) (s : State) : (s.answer r).inputs = s.inputs := rfl
@[simp] theorem State.answer_slots (r : Response) (s : State) :
    (s.answer r).slots = (some r :: s.slots).dropLast := rfl
@[simp] theorem State.answer_rsp (r : Response) (s : State) : (s.answer r).rsp = s.slots.getLastD (some r) := rfl
@[simp] theorem State.answer_received (r : Response) (s : State) :
    (s.answer r).received = s.received ++ (s.slots.getLastD (some r)).toList := rfl
@[simp] theorem State.answer_cycle (r : Response) (s : State) : (s.answer r).cycle = s.cycle + 1 := rfl

@[simp] theorem State.idleCycle_params (s : State) : s.idleCycle.params = s.params := rfl
@[simp] theorem State.idleCycle_inputs (s : State) : s.idleCycle.inputs = s.inputs := rfl
@[simp] theorem State.idleCycle_slots (s : State) : s.idleCycle.slots = (none :: s.slots).dropLast := rfl
@[simp] theorem State.idleCycle_rsp (s : State) : s.idleCycle.rsp = s.slots.getLastD none := rfl
@[simp] theorem State.idleCycle_received (s : State) :
    s.idleCycle.received = s.received ++ (s.slots.getLastD none).toList := rfl
@[simp] theorem State.idleCycle_cycle (s : State) : s.idleCycle.cycle = s.cycle + 1 := rfl

@[simp] theorem State.resetCycle_params (s : State) : s.resetCycle.params = s.params := rfl
@[simp] theorem State.resetCycle_inputs (s : State) : s.resetCycle.inputs = s.inputs := rfl
@[simp] theorem State.resetCycle_slots (s : State) :
    s.resetCycle.slots = List.replicate s.params.latency none := rfl
@[simp] theorem State.resetCycle_rsp (s : State) : s.resetCycle.rsp = none := rfl
@[simp] theorem State.resetCycle_received (s : State) : s.resetCycle.received = s.received := rfl
@[simp] theorem State.resetCycle_cycle (s : State) : s.resetCycle.cycle = s.cycle + 1 := rfl

@[simp] theorem State.resetOf_params (p : Config.Params) : (State.resetOf p).params = p := rfl
@[simp] theorem State.resetOf_inputs (p : Config.Params) : (State.resetOf p).inputs = [] := rfl
@[simp] theorem State.resetOf_slots (p : Config.Params) :
    (State.resetOf p).slots = List.replicate p.latency none := rfl
@[simp] theorem State.resetOf_rsp (p : Config.Params) : (State.resetOf p).rsp = none := rfl
@[simp] theorem State.resetOf_received (p : Config.Params) : (State.resetOf p).received = [] := rfl

@[simp] theorem State.present_inputs (cw : CommandWord) (s : State) :
    (s.present cw).inputs = PortIn.present (opField cw) (operandField cw) :: s.inputs := rfl
@[simp] theorem State.present_slots (cw : CommandWord) (s : State) : (s.present cw).slots = s.slots := rfl
@[simp] theorem State.present_latency (cw : CommandWord) (s : State) :
    (s.present cw).params.latency = s.params.latency := rfl

@[simp] theorem sample_reset (pin : PortIn) (h : pin.rst = true) : sample pin = .reset := by simp [sample, h]
@[simp] theorem sample_present (op : OpCode) (d : Word) : sample (PortIn.present op d) = .request op d := rfl
@[simp] theorem sample_idle : sample PortIn.idle = .idle := rfl

theorem State.portIn_cons (s : State) (pin : PortIn) (rest : List PortIn) (h : s.inputs = pin :: rest) :
    s.portIn = pin := by simp [State.portIn, h]

theorem State.dropInput_cons (s : State) (pin : PortIn) (rest : List PortIn) (h : s.inputs = pin :: rest) :
    s.dropInput = { s with inputs := rest } := by simp [State.dropInput, h]

@[simp] theorem State.portOut_rspValid (s : State) : s.portOut.rspValid = s.rspValid := rfl
@[simp] theorem State.portOut_rspIll (s : State) : s.portOut.rspIll = s.rspIll := rfl
@[simp] theorem State.portOut_rspR (s : State) : s.portOut.rspR = s.rspR := rfl

@[simp] theorem Response.ill_result (r : Word) : (Response.result r).ill = false := rfl
@[simp] theorem Response.ill_illegalOp (op : OpCode) : (Response.illegalOp op).ill = true := rfl

end Sys2Proof.Machine
end

