-- ==== Sys2Proof/Laws/Step.lean ====
section
/-! SUPPORT. Everything a cycle can do, once: later proofs cite these and unfold neither `step` nor `exec`. -/

namespace Sys2Proof.Machine

/-- A request is answered with `Exec` of it, whichever way the decoder went (10_state.md R28). -/
theorem runRequest_eq (op : OpCode) (d : Word) (s : State) :
    runRequest op d s = .next (s.answer (Exec s.params op d)) := by
  unfold runRequest decode
  simp only [opField_commandWord, operandField_commandWord]
  unfold Exec
  by_cases h0 : op = 0#3
  · simp [h0, exec, execToint32, respond]
  by_cases h1 : op = 1#3
  · simp [h1, exec, execTouint32, respond]
  by_cases h2 : op = 2#3
  · simp [h2, exec, execToint64, respond]
  by_cases h3 : op = 3#3
  · simp [h3, exec, execTouint64, respond]
  by_cases h4 : op = 4#3 ∧ s.params.hasToInteger = true
  · simp [h4.1, h4.2, exec, execTointeger, respond]
  · simp [h0, h1, h2, h3, h4, raiseIllegalOp]

/-- The state after one cycle, as a function of what the cycle samples. -/
def State.after (s : State) : State :=
  match sample s.portIn with
  | .reset => s.dropInput.resetCycle
  | .idle => s.dropInput.idleCycle
  | .request op d => s.dropInput.answer (Exec s.params op d)

theorem step_eq_after (s : State) : step s = .next s.after := by
  unfold step runCycle State.after
  cases sample s.portIn <;> simp [runRequest_eq]

/-- The cases of a step (10_state.md R28, 70_reset_and_hazards.md R190). -/
theorem step_cases {s t : State} (h : step s = .next t) :
    (sample s.portIn = .reset ∧ t = s.dropInput.resetCycle) ∨
    (sample s.portIn ≠ .reset ∧ t = s.dropInput.clock (s.portIn.response s.params)) := by
  rw [step_eq_after, Host.Outcome.next.injEq] at h
  subst h
  unfold State.after PortIn.response
  cases hs : sample s.portIn with
  | reset => exact .inl ⟨rfl, rfl⟩
  | idle => exact .inr ⟨by simp, rfl⟩
  | request op d => exact .inr ⟨by simp, rfl⟩

theorem sample_eq_reset_iff (pin : PortIn) : sample pin = .reset ↔ pin.rst = true := by
  unfold sample
  cases pin.rst <;> cases pin.reqValid <;> simp

/-- A step of a cycle without reset: the sampled request's response enters the slots. -/
theorem step_of_no_reset {s : State} (h : s.portIn.rst = false) :
    step s = .next (s.dropInput.clock (s.portIn.response s.params)) := by
  obtain ⟨hr, -⟩ | ⟨-, ht⟩ := step_cases (step_eq_after s)
  · simp [(sample_eq_reset_iff _).1 hr] at h
  · rw [step_eq_after, ht]

theorem step_of_reset {s : State} (h : s.portIn.rst = true) : step s = .next s.dropInput.resetCycle := by
  obtain ⟨-, ht⟩ | ⟨hr, -⟩ := step_cases (step_eq_after s)
  · rw [step_eq_after, ht]
  · exact absurd ((sample_eq_reset_iff _).2 h) hr

/-- Running is stepping and running on. -/
theorem runCycles_succ (n : Nat) (s : State) : runCycles (n + 1) s = runCycles n s.after := by
  simp [runCycles, step_eq_after]

/-- The state after `n` cycles. -/
def State.afterCycles : Nat → State → State
  | 0, s => s
  | n + 1, s => State.afterCycles n s.after

/-- A run never stops early. -/
theorem runCycles_eq (n : Nat) (s : State) : runCycles n s = .next (s.afterCycles n) := by
  induction n generalizing s with
  | zero => rfl
  | succ n ih => rw [runCycles_succ, ih]; rfl

/-- The exact answers of `exec`: the response of the operation, or IllegalOp for an operation the instance lacks. -/
theorem exec_eq (i : Instr) (s : State) :
    exec i s = .next (s.answer (Exec s.params (opCode i) i.operand)) := by
  cases i <;> simp [exec, Exec, opCode, Instr.operand, execToint32, execTouint32, execToint64, execTouint64,
    execTointeger, respond, raiseIllegalOp]
  split <;> simp_all

end Sys2Proof.Machine
end

