-- ==== Sys2Proof/Laws/Pipeline.lean ====
section
/-! SUPPORT. The in-flight slots under one cycle: their number, the inputs that remain, and the responses delivered
together with those still in flight, which one cycle only ever extends (10_state.md R28, R30). -/

namespace Sys2Proof.Machine

theorem State.after_of_no_reset {s : State} (h : s.portIn.rst = false) :
    s.after = s.dropInput.clock (s.portIn.response s.params) := by
  have := step_of_no_reset h
  rw [step_eq_after] at this
  simpa using this

theorem State.after_of_reset {s : State} (h : s.portIn.rst = true) : s.after = s.dropInput.resetCycle := by
  have := step_of_reset h
  rw [step_eq_after] at this
  simpa using this

@[simp] theorem State.after_params (s : State) : s.after.params = s.params := by
  cases h : s.portIn.rst
  · rw [State.after_of_no_reset h]
    rfl
  · rw [State.after_of_reset h]
    rfl

@[simp] theorem State.after_inputs (s : State) : s.after.inputs = s.inputs.tail := by
  cases h : s.portIn.rst
  · rw [State.after_of_no_reset h]
    rfl
  · rw [State.after_of_reset h]
    rfl

/-- The number of slots stays `LATENCY`. -/
theorem State.after_slots_length (s : State) (h : s.slots.length = s.params.latency) :
    s.after.slots.length = s.after.params.latency := by
  rw [State.after_params]
  cases hr : s.portIn.rst
  · rw [State.after_of_no_reset hr]
    simp [h]
  · rw [State.after_of_reset hr]
    simp

/-- No reset for one cycle more: none now and none in what follows. -/
theorem State.noResetFor_succ (s : State) (n : Nat) :
    s.NoResetFor (n + 1) ↔ s.portIn.rst = false ∧ s.after.NoResetFor n := by
  unfold State.NoResetFor State.portIn
  rw [State.after_inputs]
  cases s.inputs <;> simp [PortIn.idle]

/-- The responses delivered and in flight, the oldest first. -/
def State.issued (s : State) : List Response := s.received ++ s.slots.reverse.filterMap id

/-- One cycle without reset adds the response that comes in and loses none. -/
theorem State.issued_clock (x : Option Response) (s : State) : (s.clock x).issued = s.issued ++ x.toList := by
  have key : ∀ l : List (Option Response),
      (l.getLastD x).toList ++ (x :: l).dropLast.reverse.filterMap id = l.reverse.filterMap id ++ x.toList := by
    intro l
    induction l using List.reverseRecOn with
    | nil => simp
    | append_singleton l a ih =>
      rw [List.getLastD_eq_getLast?, ← List.cons_append, List.dropLast_concat]
      cases a <;> cases x <;> simp
  unfold State.issued
  simp only [State.clock_received, State.clock_slots, List.append_assoc]
  rw [key]

theorem PortIn.response_present (p : Config.Params) (op : OpCode) (d : Word) :
    (PortIn.present op d).response p = some (Exec p op d) := rfl

theorem PortIn.response_idle (p : Config.Params) : PortIn.idle.response p = none := rfl

/-- `ill` is 1 exactly for the reserved codes (60_exceptions.md R171). -/
theorem Exec_ill (p : Config.Params) (op : OpCode) (d : Word) : (Exec p op d).ill = reservedOp p op := by
  unfold Exec reservedOp
  generalize p.hasToInteger = ti
  by_cases h0 : op = 0#3
  · simp [h0]
  by_cases h1 : op = 1#3
  · simp [h1]
  by_cases h2 : op = 2#3
  · simp [h2]
  by_cases h3 : op = 3#3
  · simp [h3]
  by_cases h4 : op = 4#3 ∧ ti = true
  · simp [h4.1, h4.2]
  simp only [h0, h1, h2, h3, h4, if_false, Response.ill_illegalOp]
  revert op ti
  decide

end Sys2Proof.Machine
end

