-- ==== Sys2Proof/Laws/Value.lean ====
section
/-! SUPPORT. The value of an operand (00_scope.md R14) in terms of mantissa and exponent: what the statements about the
contract of the converters rest on. -/

namespace Sys2Proof.Machine

theorem signFactor_cases (bits : Word) : signFactor bits = 1 ∨ signFactor bits = -1 := by
  unfold signFactor
  rcases sign_eq_zero_or_one bits with h | h <;> simp [h]

theorem signFactor_congr {a b : Word} (h : sign a = sign b) : signFactor a = signFactor b := by
  unfold signFactor
  rw [h]

theorem abs_signFactor (bits : Word) : |(signFactor bits : ℚ)| = 1 := by
  rcases signFactor_cases bits with h | h <;> simp [h]

theorem val_normal (bits : Word) (h1 : 1 ≤ (bexp bits).toNat) (h2 : (bexp bits).toNat ≤ 2046) :
    val bits = .finite ((signFactor bits : ℚ) * (1 + ((mant bits).toNat : ℚ) / 2 ^ 52) * (2 : ℚ) ^ expOf bits) := by
  unfold val
  simp only
  rw [if_pos ⟨h1, h2⟩, expOf_eq]

/-- The magnitude of a normal operand. -/
theorem abs_normal (bits : Word) :
    |(signFactor bits : ℚ) * (1 + ((mant bits).toNat : ℚ) / 2 ^ 52) * (2 : ℚ) ^ expOf bits| =
      (2 ^ 52 + (mant bits).toNat : ℚ) * 2 ^ (expOf bits - 52) := by
  rw [abs_mul, abs_mul, abs_signFactor, abs_of_nonneg (by positivity), abs_of_nonneg (by positivity),
    zpow_sub₀ (by norm_num), show (2 : ℚ) ^ (52 : ℤ) = 2 ^ 52 by norm_cast]
  field_simp

/-- A finite operand: biased exponent 0 and magnitude below 1, or normal. -/
theorem val_finite_cases (bits : Word) (x : ℚ) (h : val bits = .finite x) :
    ((bexp bits).toNat = 0 ∧ |x| < 1) ∨
    (1 ≤ (bexp bits).toNat ∧ (bexp bits).toNat ≤ 2046 ∧
      |x| = (2 ^ 52 + (mant bits).toNat : ℚ) * 2 ^ (expOf bits - 52)) := by
  by_cases h1 : 1 ≤ (bexp bits).toNat ∧ (bexp bits).toNat ≤ 2046
  · rw [val_normal bits h1.1 h1.2] at h
    cases h
    exact .inr ⟨h1.1, h1.2, abs_normal bits⟩
  · unfold val at h
    simp only at h
    rw [if_neg h1] at h
    split at h
    next h2 =>
      cases h
      exact .inl ⟨h2.1, by norm_num⟩
    next =>
      split at h
      next h3 =>
        cases h
        refine .inl ⟨h3, ?_⟩
        have hm : ((mant bits).toNat : ℚ) < 2 ^ 52 := by exact_mod_cast mant_lt bits
        have hfrac : ((mant bits).toNat : ℚ) / 2 ^ 52 < 1 := by
          rw [div_lt_one (by norm_num)]
          exact hm
        have hscale : (2 : ℚ) ^ (-1022 : ℤ) ≤ 1 := zpow_le_one_of_nonpos₀ (by norm_num) (by norm_num)
        have hfrac0 : (0 : ℚ) ≤ ((mant bits).toNat : ℚ) / 2 ^ 52 := by positivity
        have hscale0 : (0 : ℚ) < 2 ^ (-1022 : ℤ) := by positivity
        rw [abs_mul, abs_mul, abs_signFactor, abs_of_nonneg hfrac0, abs_of_nonneg hscale0.le, one_mul]
        nlinarith
      next => split at h <;> cases h

theorem val_isFinite_iff (bits : Word) : (∃ x, val bits = .finite x) ↔ (bexp bits).toNat ≤ 2046 := by
  constructor
  · rintro ⟨x, h⟩
    rcases val_finite_cases bits x h with ⟨h, -⟩ | ⟨-, h, -⟩ <;> omega
  · intro h
    by_cases h1 : 1 ≤ (bexp bits).toNat
    · exact ⟨_, val_normal bits h1 h⟩
    · unfold val
      simp only
      rw [if_neg (by omega)]
      split
      · exact ⟨_, rfl⟩
      · rw [if_pos (by omega)]
        exact ⟨_, rfl⟩

/-- A finite value is its sign times its magnitude. -/
theorem val_eq_signFactor_mul_abs (d : Word) (x : ℚ) (h : val d = .finite x) : x = signFactor d * |x| := by
  have hnormal : ∀ a b : ℚ, 0 ≤ a → 0 ≤ b →
      (signFactor d : ℚ) * a * b = signFactor d * |(signFactor d : ℚ) * a * b| := by
    intro a b ha hb
    rw [abs_mul, abs_mul, abs_signFactor, abs_of_nonneg ha, abs_of_nonneg hb]
    ring
  unfold val at h
  simp only at h
  split at h
  · cases h
    exact hnormal _ _ (by positivity) (by positivity)
  · split at h
    · cases h
      simp
    · split at h
      · cases h
        exact hnormal _ _ (by positivity) (by positivity)
      · split at h <;> cases h

theorem two_zpow_le_abs (bits : Word) :
    (2 : ℚ) ^ expOf bits ≤ (2 ^ 52 + (mant bits).toNat : ℚ) * 2 ^ (expOf bits - 52) := by
  have hm : (0 : ℚ) ≤ (mant bits).toNat := by positivity
  have hp : (0 : ℚ) < 2 ^ expOf bits := by positivity
  rw [zpow_sub₀ (by norm_num), show (2 : ℚ) ^ (52 : ℤ) = 2 ^ 52 by norm_cast]
  field_simp
  nlinarith

theorem abs_lt_two_zpow (bits : Word) :
    (2 ^ 52 + (mant bits).toNat : ℚ) * 2 ^ (expOf bits - 52) < (2 : ℚ) ^ (expOf bits + 1) := by
  have hm : ((mant bits).toNat : ℚ) < 2 ^ 52 := by exact_mod_cast mant_lt bits
  have hp : (0 : ℚ) < 2 ^ expOf bits := by positivity
  rw [zpow_sub₀ (by norm_num), zpow_add₀ (by norm_num), show (2 : ℚ) ^ (52 : ℤ) = 2 ^ 52 by norm_cast,
    ← mul_div_assoc, div_lt_iff₀ (by norm_num), zpow_one]
  nlinarith

theorem floor_normal (m e : Nat) : ⌊(2 ^ 52 + (m : ℚ)) * 2 ^ ((e : ℤ) - 52)⌋ = (wholePart m e : ℤ) := by
  unfold wholePart
  split
  next h =>
    have : (2 ^ 52 + (m : ℚ)) * 2 ^ ((e : ℤ) - 52) = (((2 ^ 52 + m) * 2 ^ (e - 52) : ℕ) : ℚ) := by
      rw [show ((e : ℤ) - 52) = ((e - 52 : ℕ) : ℤ) by omega, zpow_natCast]
      push_cast
      rfl
    rw [this, Int.floor_natCast]
  next h =>
    have : (2 ^ 52 + (m : ℚ)) * 2 ^ ((e : ℤ) - 52) = ((2 ^ 52 + m : ℕ) : ℚ) / ((2 ^ (52 - e) : ℕ) : ℚ) := by
      rw [show ((e : ℤ) - 52) = -((52 - e : ℕ) : ℤ) by omega, zpow_neg, zpow_natCast]
      push_cast
      rfl
    rw [this, Rat.floor_natCast_div_natCast]
    exact (Int.natCast_div _ _).symm

/-- `floor(|val|)` of a finite operand with a non-negative exponent is the whole part. -/
theorem floor_abs_val (bits : Word) (x : ℚ) (h : val bits = .finite x) (e : Nat) (he : expOf bits = e) :
    ⌊|x|⌋ = (wholePart (mant bits).toNat e : ℤ) := by
  rcases val_finite_cases bits x h with ⟨h1, -⟩ | ⟨-, -, h3⟩
  · rw [expOf_eq] at he
    omega
  · rw [h3, he, floor_normal]

/-- Magnitude below 1 is a negative decoded exponent, for every finite operand. -/
theorem abs_val_lt_one_iff (bits : Word) (x : ℚ) (h : val bits = .finite x) : |x| < 1 ↔ expOf bits < 0 := by
  rcases val_finite_cases bits x h with ⟨h1, h2⟩ | ⟨-, -, h3⟩
  · rw [expOf_eq]
    exact ⟨fun _ => by omega, fun _ => h2⟩
  · constructor
    · intro hx
      by_contra hc
      have hge := two_zpow_le_abs bits
      have hone : (1 : ℚ) ≤ 2 ^ expOf bits := one_le_zpow₀ (by norm_num) (by omega)
      rw [← h3] at hge
      linarith
    · intro he
      rw [h3]
      exact lt_of_lt_of_le (abs_lt_two_zpow bits) (zpow_le_one_of_nonpos₀ (by norm_num) (by omega))

theorem floor_abs_eq_zero (x : ℚ) (h : |x| < 1) : ⌊|x|⌋ = 0 := by
  rw [Int.floor_eq_zero_iff]
  exact ⟨abs_nonneg _, h⟩

/-- Truncation toward zero is sign times floor of the magnitude. -/
theorem truncate_eq (d : Word) (x : ℚ) (h : x = signFactor d * |x|) : truncate x = signFactor d * ⌊|x|⌋ := by
  unfold truncate
  rcases signFactor_cases d with hs | hs <;> rw [hs] at h ⊢ <;> simp at h ⊢
  · rw [if_neg (by rw [not_lt, ← abs_eq_self]; exact h.symm), ← h]
  · have hx : x ≤ 0 := by
      rw [h]
      simp
    rcases hx.lt_or_eq with h2 | h2
    · rw [if_pos h2, abs_of_neg h2, Int.floor_neg]
      simp
    · rw [h2]
      simp

theorem integerPart_finite (d : Word) (x : ℚ) (h : val d = .finite x) : integerPart d = signFactor d * ⌊|x|⌋ := by
  unfold integerPart
  rw [h]

theorem isInf_or_isNaN_iff (d : Word) : (isInf d = true ∨ isNaN d = true) ↔ ¬ ∃ x, val d = .finite x := by
  have := bexp_le d
  rw [val_isFinite_iff, isInf_iff, isNaN_iff]
  omega

theorem integerPart_nonfinite (d : Word) (h : isInf d = true ∨ isNaN d = true) : integerPart d = 0 := by
  rw [isInf_or_isNaN_iff] at h
  unfold integerPart
  cases hv : val d with
  | finite x => exact absurd ⟨x, hv⟩ h
  | infinity _ => rfl
  | notANumber => rfl

end Sys2Proof.Machine
end

