-- ==== Sys2Proof/Tests/Slice0.lean ====
section
/-! SUPPORT. The model's own tests. Expected values are the spec's: the words and responses of 95_test_vectors.md, the
traces of 96_trace_tables.md, and the worked examples in the rules. At the end, one witness per statement with
hypotheses. -/

namespace Sys2Proof.Machine

/-- An instance with option TI and no slots. -/
def withOption : State := State.resetOf { hasToInteger := true, fastPath := false, latency := 0 }

/-- An instance with two slots, `LATENCY` = 2, as in program P6. -/
def pipelined : State := State.resetOf { hasToInteger := false, fastPath := false, latency := 2 }

/-- The port after a step or an operation; nothing where the machine stopped. -/
def portAfter : Host.Outcome State Fault Refusal → Option Response
  | .next t => t.rsp
  | .fault _ => none
  | .refused _ => none

/-- The slots after a step; an empty list where the machine stopped. -/
def slotsAfter : Host.Outcome State Fault Refusal → List (Option Response)
  | .next t => t.slots
  | .fault _ => []
  | .refused _ => []

/-! ## WellFormed -/

/-- The one check refuses TOINTEGER in the baseline (43_tointeger.md R140). -/
theorem test_wellFormed_refuses_tointeger_without_option :
    Instr.wellFormed Config.Params.baseline (.tointeger 0) = false := by decide

theorem test_wellFormed_accepts_tointeger_with_option :
    Instr.wellFormed withOption.params (.tointeger 0) = true := by decide

/-! ## Decoding, from words written out (95_test_vectors.md sections 1, 2.5 and 3) -/

theorem test_decode_toint32 :
    decode Config.Params.baseline 0x0C1E0000000200000 = .ok (.toint32 0xC1E0000000200000) := by decide
theorem test_decode_touint32 :
    decode Config.Params.baseline 0x1C1E0000000200000 = .ok (.touint32 0xC1E0000000200000) := by decide
theorem test_decode_toint64 :
    decode Config.Params.baseline 0x2C1E0000000200000 = .ok (.toint64 0xC1E0000000200000) := by decide
theorem test_decode_touint64 :
    decode Config.Params.baseline 0x3C1E0000000200000 = .ok (.touint64 0xC1E0000000200000) := by decide
theorem test_decode_tointeger :
    decode withOption.params 0x4C1E0000000200000 = .ok (.tointeger 0xC1E0000000200000) := by decide
theorem test_decode_4_reserved_in_baseline :
    decode Config.Params.baseline 0x4C1E0000000200000 = .error (.reserved 4) := by decide
theorem test_decode_5_reserved : decode withOption.params 0x5C1E0000000200000 = .error (.reserved 5) := by decide
theorem test_decode_6_reserved : decode withOption.params 0x6C1E0000000200000 = .error (.reserved 6) := by decide
theorem test_decode_7_reserved : decode withOption.params 0x7C1E0000000200000 = .error (.reserved 7) := by decide

theorem test_encode_toint64 : encode (.toint64 0xC19D6F3457000000) = 0x2C19D6F3457000000 := by decide

theorem test_decodeTableWord :
    decodeTableWord 72 0x3BFF8000000000000 = some (.touint64 0xBFF8000000000000) := by decide
theorem test_decodeTableWord_short : decodeTableWord 64 0x3BFF8000000000000 = some (.toint32 0xBFF8000000000000) := by
  decide
theorem test_decodeTableWord_refuses_reserved : decodeTableWord 67 0x50000000000000000 = none := by decide

/-! ## The decomposer (95_test_vectors.md section 2.1) -/

theorem test_fields : sign 0xC00599999999999A = 1 ∧ bexp 0xC00599999999999A = 0x400 ∧
    mant 0xC00599999999999A = 0x599999999999A ∧ expOf 0xC00599999999999A = 1 := by decide
theorem test_class_boundaries :
    classOf .w32 83 = .align ∧ classOf .w32 84 = .huge ∧ classOf .w64 115 = .align ∧ classOf .w64 116 = .huge ∧
    classOf .w32 (-1) = .small ∧ classOf .w32 0 = .align := by decide
theorem test_special_values :
    isZero 0x8000000000000000 = true ∧ isSub 0x800FFFFFFFFFFFFF = true ∧ isInf 0xFFF0000000000000 = true ∧
    isNaN 0x7FF0000000000001 = true ∧ isSub 0x0010000000000000 = false := by decide
theorem test_lanes : ofBytesLE [0, 0, 0, 0, 0, 0, 0xF0, 0xBF] = 0xBFF0000000000000 ∧
    ofBytesBE [0xBF, 0xF0, 0, 0, 0, 0, 0, 0] = 0xBFF0000000000000 := by decide

/-! ## The wires (95_test_vectors.md section 2.2, four traces) -/

theorem test_wires_right_shift : alignShift 0xC19D6F3457000000 = 0x00000030675BCD15 ∧
    truncated .w32 0xC19D6F3457000000 = 0x675BCD15 ∧ oneAt .w32 0xC19D6F3457000000 = 0x04000000 ∧
    magnitude .w32 0xC19D6F3457000000 = 0x075BCD15 := by decide
theorem test_wires_left_shift_no_mask : alignShift 0x4340000000000001 = 0x8680000000000002 ∧
    magnitude .w32 0x4340000000000001 = 0x00000002 := by decide
theorem test_signed_formula_corners : reinterpretSigned .w32 0x80000000 = -2147483648 ∧
    reinterpretSigned .w32 0xFFFFFFFF = -1 ∧ reinterpretSigned .w64 0x7FFFFFFFFFFFFFFF = 9223372036854775807 := by decide

/-! ## The operations, one step each -/

/-- The worked example of 42_signed_converter.md R124. -/
theorem test_toint32_min : portAfter (exec (.toint32 0x41E0000000000000) State.reset) =
    some (.result 0xFFFFFFFF80000000) := by decide
/-- 95_test_vectors.md P2, request 5: −2147483649 wraps. -/
theorem test_toint32_wraps : portAfter (exec (.toint32 0xC1E0000000200000) State.reset) =
    some (.result 0x000000007FFFFFFF) := by decide
/-- The worked example of 41_unsigned_converter.md R107. -/
theorem test_touint32_minus_one : portAfter (exec (.touint32 0xBFF0000000000000) State.reset) =
    some (.result 0x00000000FFFFFFFF) := by decide
/-- 95_test_vectors.md P4, request 3: the last ALIGN exponent at W = 32. -/
theorem test_touint32_last_align : portAfter (exec (.touint32 0x4520000000000001) State.reset) =
    some (.result 0x0000000080000000) := by decide
/-- The worked example of 42_signed_converter.md R125. -/
theorem test_toint64_fraction : portAfter (exec (.toint64 0xC19D6F3457000000) State.reset) =
    some (.result 0xFFFFFFFFF8A432EB) := by decide
/-- 95_test_vectors.md P4, request 9: the largest double below 2^64. -/
theorem test_toint64_wraps : portAfter (exec (.toint64 0x43EFFFFFFFFFFFFF) State.reset) =
    some (.result 0xFFFFFFFFFFFFF800) := by decide
/-- The worked example of 41_unsigned_converter.md R108. -/
theorem test_touint64 : portAfter (exec (.touint64 0x41F0000000100000) State.reset) =
    some (.result 0x0000000100000001) := by decide
/-- 95_test_vectors.md P4, request 10: the implicit bit is outside the window. -/
theorem test_touint64_implicit_bit_outside : portAfter (exec (.touint64 0x43F0000000000001) State.reset) =
    some (.result 0x0000000000001000) := by decide
/-- The worked example of 43_tointeger.md R144. -/
theorem test_tointeger : portAfter (exec (.tointeger 0xC00599999999999A) withOption) =
    some (.result 0xC000000000000000) := by decide
/-- 95_test_vectors.md P3, request 6: code 4 in the baseline. -/
theorem test_tointeger_absent : portAfter (exec (.tointeger 0xBFF8000000000000) State.reset) =
    some (.illegalOp 4) := by decide

/-! ## Cycles -/

/-- The next step after `withFetchWord` runs the word's instruction, TOINTEGER's included. -/
theorem test_withFetchWord_runs : portAfter (step (State.reset.withFetchWord 72 0x1BFF0000000000000)) =
    some (.result 0x00000000FFFFFFFF) := by decide
theorem test_withFetchWord_runs_tointeger : portAfter (step (State.reset.withFetchWord 72 0x4C00599999999999A)) =
    some (.result 0xC000000000000000) := by decide
/-- A reserved code is answered, at the normal time (95_test_vectors.md P3, request 4). -/
theorem test_step_reserved : portAfter (step (State.reset.withFetchWord 72 0x7BFF8000000000000)) =
    some (.illegalOp 7) := by decide
/-- With two slots the response enters the young end and nothing shows yet (P6, cycle 1). -/
theorem test_step_pipelined : slotsAfter (step { pipelined with inputs := [PortIn.present 1 0xBFF0000000000000] }) =
    [some (.result 0x00000000FFFFFFFF), none] := by decide
/-- A reset cycle drops what is in flight and what is presented (P6, cycle 7). -/
theorem test_step_reset : slotsAfter (step { pipelined with
      slots := [some (.result 1), some (.result 2)]
      inputs := [{ PortIn.present 0 0x41F0000000100000 with rst := true }] }) = [none, none] := by decide
/-- The oldest slot leaves on the port (P6, cycle 4). -/
theorem test_step_delivers : portAfter (step { pipelined with slots := [none, some (.result 0xFFFFFFFF80000000)] }) =
    some (.result 0xFFFFFFFF80000000) := by decide

/-! ## The assembler (30_encoding.md R67; patterns of 95_test_vectors.md section 1) -/

theorem test_assemble_decimal : assembleLine ("touint32  4294967295.5 ; comment".toList) =
    some 0x141EFFFFFFFF00000 := by decide
theorem test_assemble_nearest : assembleLine ("tointeger -2.7".toList) = some 0x4C00599999999999A := by decide
/-- The model's own choice (log 15): a bare point is read, a literal without a whole part is not. -/
theorem test_assemble_bare_point : assembleLine ("touint32 5.".toList) = assembleLine ("touint32 5".toList) ∧
    assembleLine ("touint32 .5".toList) = none := by decide
theorem test_assemble_raw : assembleLine (".op 7    0xBFF8000000000000    ; reserved code 7".toList) =
    some 0x7BFF8000000000000 := by decide
theorem test_assemble_refuses_short_hex : assembleLine ("toint32 0x41E".toList) = none := by decide

/-! ## Witnesses: the hypotheses of each statement can be met together -/

theorem witness_DecodeAndEncodeAgree :
    ∃ i, decode withOption.params 0x47FF8000000000000 = .ok i ∧ i.wellFormed withOption.params = true ∧
      encode i = 0x47FF8000000000000 := ⟨.tointeger 0x7FF8000000000000, by decide, by decide, by decide⟩

theorem witness_OpBitsSelectWidthAndSignedness : ∃ op : OpCode, op.getLsbD 2 = false ∧ op.getLsbD 1 = true := ⟨2, by decide⟩

theorem witness_DecoderFollowsTheOpcodeTable :
    ∃ i, decode Config.Params.baseline 0x3FFFFFFFFFFFFFFFF = .ok i ∧ (tableRow i).hits 0x3FFFFFFFFFFFFFFFF = true ∧
      i.wellFormed Config.Params.baseline = true := ⟨.touint64 0xFFFFFFFFFFFFFFFF, by decide, by decide, by decide⟩

/-- Both ends of the lanes, with the values the two clauses give there. -/
theorem witness_ByteLanesOfTheOperand : ∃ bytes : List Byte, bytes.length = 8 ∧
    lane (ofBytesLE bytes) 0 = 1 ∧ lane (ofBytesLE bytes) 7 = 8 ∧ lane (ofBytesBE bytes) 0 = 8 ∧
    lane (ofBytesBE bytes) 7 = 1 := ⟨[1, 2, 3, 4, 5, 6, 7, 8], by decide⟩

/-- Each of the four kinds of operand, and exponents at both ends. -/
theorem witness_DecodedExponentNeverWraps :
    isZero 0 = true ∧ isSub 0x000FFFFFFFFFFFFF = true ∧ isInf 0xFFF0000000000000 = true ∧
    isNaN 0xFFFFFFFFFFFFFFFF = true ∧ expOf 0 = -1023 ∧ expOf 0xFFFFFFFFFFFFFFFF = 1024 := by decide

theorem finite_of_bexp (d : Word) (h : (bexp d).toNat ≤ 2046) : ∃ x, val d = .finite x := (val_isFinite_iff d).2 h

/-- Below and at magnitude 1. -/
theorem witness_SmallIsMagnitudeBelowOne :
    (∃ x, val 0x3FEFFFFFFFFFFFFF = .finite x) ∧ classOf .w32 (expOf 0x3FEFFFFFFFFFFFFF) = .small ∧
    (∃ x, val 0x3FF0000000000000 = .finite x) ∧ classOf .w32 (expOf 0x3FF0000000000000) = .align ∧
    isZero 0x8000000000000000 = true ∧ isSub 0x0000000000000001 = true :=
  ⟨finite_of_bexp _ (by decide), by decide, finite_of_bexp _ (by decide), by decide, by decide, by decide⟩

/-- The first HUGE exponents of both widths, a finite operand and a NaN. -/
theorem witness_HugeIsZeroModuloTwoToTheW :
    (∃ x, val 0x4530000000000001 = .finite x) ∧ classOf .w32 (expOf 0x4530000000000001) = .huge ∧
    (∃ x, val 0x4730000000000000 = .finite x) ∧ classOf .w64 (expOf 0x4730000000000000) = .huge ∧
    isNaN 0x7FF8000000000000 = true ∧ isInf 0x7FF0000000000000 = true :=
  ⟨finite_of_bexp _ (by decide), by decide, finite_of_bexp _ (by decide), by decide, by decide, by decide⟩

/-- Exponents 0, 51, 53 and 115: each clause at its boundary. -/
theorem witness_ShiftAmountsAreBelowTheWidth :
    classOf .w64 (expOf 0x3FF0000000000000) = .align ∧ expOf 0x3FF0000000000000 = 0 ∧
    classOf .w64 (expOf 0x432FFFFFFFFFFFFF) = .align ∧ expOf 0x432FFFFFFFFFFFFF = 51 ∧
    classOf .w64 (expOf 0x4340000000000001) = .align ∧ expOf 0x4340000000000001 = 53 ∧
    classOf .w64 (expOf 0x472FFFFFFFFFFFFF) = .align ∧ expOf 0x472FFFFFFFFFFFFF = 115 := by decide

theorem witness_UnsignedConverterMeetsTheContract :
    (∃ x, val 0xC72FFFFFFFFFFFFF = .finite x) ∧ isInf 0xFFF0000000000000 = true ∧ isNaN 0x7FF0000000000001 = true :=
  ⟨finite_of_bexp _ (by decide), by decide, by decide⟩

/-- Below e = W and at it. -/
theorem witness_MagnitudeWireIsTheFloorModuloTwoToTheW :
    classOf .w32 (expOf 0x41EFFFFFFFF00000) = .align ∧ (∃ x, val 0x41EFFFFFFFF00000 = .finite x) ∧
    expOf 0x41EFFFFFFFF00000 = 31 ∧ classOf .w32 (expOf 0x41F0000000000000) = .align ∧
    (∃ x, val 0x41F0000000000000 = .finite x) ∧ expOf 0x41F0000000000000 = 32 :=
  ⟨by decide, finite_of_bexp _ (by decide), by decide, by decide, finite_of_bexp _ (by decide), by decide⟩

theorem witness_ImplicitBitAdditionNeverCarries :
    classOf .w32 (expOf 0x41EFFFFFFFFFFFFF) = .align ∧ expOf 0x41EFFFFFFFFFFFFF < 32 := by decide

/-- Both sides of 2^(W−1), a finite operand and an infinity. -/
theorem witness_SignedConverterMeetsTheContract :
    (toUintWidth .w32 0x41DFFFFFFFC00000).toNat < 2 ^ 31 ∧ 2 ^ 31 ≤ (toUintWidth .w32 0x41E0000000000000).toNat ∧
    (∃ x, val 0x41E0000000000000 = .finite x) ∧ isInf 0x7FF0000000000000 = true :=
  ⟨by decide, by decide, finite_of_bexp _ (by decide), by decide⟩

theorem witness_SignedFormulaStaysInRange :
    ∃ u v : Int, (2 ^ (Width.bits .w32 - 1) ≤ u ∧ u ≤ 2 ^ Width.bits .w32 - 1 ∧ reinterpretSigned .w32 u = -2147483648) ∧
      (2 ^ (Width.bits .w64 - 1) ≤ v ∧ v ≤ 2 ^ Width.bits .w64 - 1 ∧ reinterpretSigned .w64 v = -1) :=
  ⟨2147483648, 18446744073709551615, by decide⟩

/-- 1.0 fits int32. -/
theorem witness_SignedConvertersAgreeOnInt32 :
    isNaN 0x7FF8000000000000 = true ∧ ∃ x : ℚ, val 0x3FF0000000000000 = .finite x ∧
      -2 ^ 31 ≤ signFactor 0x3FF0000000000000 * ⌊|x|⌋ ∧ signFactor 0x3FF0000000000000 * ⌊|x|⌋ ≤ 2 ^ 31 - 1 := by
  obtain ⟨x, hx⟩ := finite_of_bexp 0x3FF0000000000000 (by decide)
  have hfloor := floor_abs_val _ x hx 0 (by decide)
  refine ⟨by decide, x, hx, ?_⟩
  rw [hfloor]
  decide

theorem witness_ToIntegerTruncatesTowardZero :
    isZero 0x8000000000000000 = true ∧ isNaN 0x7FF8000000000000 = true ∧ isInf 0xFFF0000000000000 = true ∧
    ∃ x, val 0xC00599999999999A = .finite x :=
  ⟨by decide, by decide, by decide, finite_of_bexp _ (by decide)⟩

/-- −0.5 and the largest double below 1. -/
theorem witness_ToIntegerKeepsTheSign :
    isNaN 0xBFE0000000000000 = false ∧ expOf 0xBFE0000000000000 < 0 ∧ sign 0xBFE0000000000000 = 1#1 ∧
    toInteger 0xBFE0000000000000 = 0x8000000000000000 ∧
    isNaN 0x3FEFFFFFFFFFFFFF = false ∧ expOf 0x3FEFFFFFFFFFFFFF < 0 ∧ toInteger 0x3FEFFFFFFFFFFFFF = 0 := by decide

theorem witness_TointegerAnswersTheTruncatedDouble :
    withOption.params.hasToInteger = true ∧ isNaN 0x7FF8000000000000 = true ∧ isInf 0x7FF0000000000000 = true ∧
    ∃ x, val 0xBFE0000000000000 = .finite x := ⟨by decide, by decide, by decide, finite_of_bexp _ (by decide)⟩

theorem witness_TointegerWithoutTheOptionIsIllegal : State.reset.params.hasToInteger = false := by decide

theorem witness_OperationsChangeNothingElse :
    ∃ t, exec (.toint32 0x7FF8000000000000) { pipelined with slots := [some (.result 1), none] } = .next t :=
  ⟨_, exec_eq _ _⟩

theorem witness_NoOperandMakesAnOperationFail :
    ({ State.reset with inputs := [PortIn.present 3 0xFFFFFFFFFFFFFFFF] } : State).inputs =
      PortIn.present 3 0xFFFFFFFFFFFFFFFF :: [] ∧ reservedOp State.reset.params 3 = false := by decide

theorem witness_IllegalOpIsReportedInItsOwnResponse :
    ({ State.reset with inputs := [PortIn.present 4 0x7FF8000000000000] } : State).inputs =
      PortIn.present 4 0x7FF8000000000000 :: [] ∧ reservedOp State.reset.params 4 = true ∧
    Instr.wellFormed withOption.params (.tointeger 0) = true := by decide

theorem witness_StepRunsTheDecodedOperation :
    ({ withOption with inputs := [PortIn.present 4 0xC00599999999999A] } : State).inputs =
      PortIn.present 4 0xC00599999999999A :: [] ∧
    decode withOption.params (commandWord 4 0xC00599999999999A) = .ok (.tointeger 0xC00599999999999A) := by decide

theorem witness_ResetCycleClearsEverySlot :
    ∃ (s : State) (pin : PortIn), s.inputs = pin :: [] ∧ pin.rst = true ∧ s.slots = [some (.result 1), none] :=
  ⟨{ pipelined with slots := [some (.result 1), none], inputs := [{ PortIn.idle with rst := true }] }, _, rfl, rfl, rfl⟩

/-- Both grounds for ignoring the request wires. -/
theorem witness_UnsampledInputsAreIgnored :
    let a : PortIn := { PortIn.present 3 5 with rst := true }
    let b : PortIn := { PortIn.present 7 9 with rst := true }
    let c : PortIn := { PortIn.present 3 5 with reqValid := false }
    a.rst = b.rst ∧ a.reqValid = b.reqValid ∧ a.rst = true ∧ c.rst = PortIn.idle.rst ∧
      c.reqValid = PortIn.idle.reqValid ∧ c.reqValid = false := by decide

theorem witness_StepKeepsTheInvariant :
    ({ pipelined with slots := [some (.illegalOp 7), none] } : State).Inv ∧
    ∃ t, step { pipelined with slots := [some (.illegalOp 7), none] } = .next t :=
  ⟨by decide, _, step_eq_after _⟩

/-- A window without a reset and one with a reset in its last cycle. -/
theorem witness_AnsweredExactlyWhenNoResetInTheWindow :
    ({ pipelined with inputs := [PortIn.present 1 0xBFF0000000000000] } : State).Inv ∧
    ({ pipelined with inputs := [PortIn.present 1 0xBFF0000000000000] } : State).NoResetFor 3 ∧
    ¬ ({ pipelined with inputs := [PortIn.present 1 0, PortIn.idle, { PortIn.idle with rst := true }] } : State).NoResetFor 3 := by
  decide

theorem witness_ResponsesAreExecOfTheRequestsInOrder :
    let s : State := { pipelined with inputs := [PortIn.present 1 5, PortIn.idle, PortIn.present 7 5] }
    s.Inv ∧ s.NothingInFlight ∧ s.NoResetFor s.inputs.length := by decide

/-- A combinational and a pipelined instance with unlike histories. -/
theorem witness_ResponseDependsOnTheRequestAlone :
    let s : State := { State.reset with inputs := [PortIn.present 2 5] }
    let s' : State := { pipelined with
      slots := [some (.result 3), none], inputs := [PortIn.present 2 5, PortIn.present 7 1], received := [.result 9] }
    s.Inv ∧ s'.Inv ∧ s.params.hasToInteger = s'.params.hasToInteger ∧ s.NoResetFor (s.params.latency + 1) ∧
      s'.NoResetFor (s'.params.latency + 1) ∧ s.inputs.head? = some (PortIn.present 2 5) ∧
      s'.inputs.head? = some (PortIn.present 2 5) := by decide

theorem witness_FastPathHasNoEffect : ∃ t, step (State.reset.withFetchWord 72 0x041E0000000000000) = .next t :=
  ⟨_, step_eq_after _⟩

theorem witness_LatencyChangesNoResponse :
    [PortIn.present 0 5, PortIn.idle, PortIn.present 6 1].all (fun pin => !pin.rst) = true := by decide

/-- 0.375 and 0.5, with unlike exponents and aligner outputs and one result; and a result on the port. -/
theorem witness_IntermediateSignalsReachNoPort :
    Exec State.reset.params 1 0x3FD8000000000000 = Exec State.reset.params 1 0x3FE0000000000000 ∧
    bexp 0x3FD8000000000000 ≠ bexp 0x3FE0000000000000 ∧
    alignShift 0x3FD8000000000000 ≠ alignShift 0x3FE0000000000000 ∧
    ({ pipelined with rsp := some (.result 7) } : State).rsp = some (.result 7) := by decide

theorem witness_PortShowsTheResultInTheSameCycle : withOption.slots = [] ∧ withOption.params.hasToInteger = true := by
  decide

end Sys2Proof.Machine
end

section
/-! Delivery without a reset: which of the requests in flight stands on the response port after some cycles (10_state.md
R28, R30), and so what the port shows `LATENCY` cycles after a request. -/

namespace Sys2Proof.Machine

theorem State.afterCycles_succ (n : Nat) (s : State) : s.afterCycles (n + 1) = s.after.afterCycles n := rfl

/-- Without a reset the request sampled now and those in flight leave one per cycle, the oldest first: after `n + 1`
cycles the port shows the `n`-th of them, counted from 0 at the old end. -/
theorem State.rsp_afterCycles_of_no_reset (n : Nat) (s : State) (hn : n ≤ s.slots.length)
    (h : s.NoResetFor (n + 1)) :
    (s.portIn.response s.params :: s.slots)[s.slots.length - n]? = some (s.afterCycles (n + 1)).rsp := by
  induction n generalizing s with
  | zero =>
    obtain ⟨hrst, -⟩ := (s.noResetFor_succ 0).1 h
    have hrsp : (s.afterCycles 1).rsp = s.slots.getLastD (s.portIn.response s.params) := by
      rw [State.afterCycles_succ, State.after_of_no_reset hrst]
      rfl
    rw [hrsp, List.getLastD_eq_getLast?, ← List.getLast?_cons, List.getLast?_eq_getElem?]
    rfl
  | succ n ih =>
    obtain ⟨hrst, hlater⟩ := (s.noResetFor_succ (n + 1)).1 h
    have hslots : s.after.slots = (s.portIn.response s.params :: s.slots).dropLast := by
      rw [State.after_of_no_reset hrst]
      rfl
    have hlength : s.after.slots.length = s.slots.length := by simp [hslots]
    have hmoved := ih s.after (by omega) hlater
    -- an entry moves one place towards the old end in this cycle, and stays in the slots
    rw [hlength, show s.slots.length - n = s.slots.length - (n + 1) + 1 by omega, List.getElem?_cons_succ, hslots,
      List.getElem?_dropLast, if_pos (by simp; omega)] at hmoved
    exact hmoved

/-- What the port shows `LATENCY` cycles after a cycle is the response to what that cycle sampled, when no reset comes
in between (70_reset_and_hazards.md R192). -/
theorem State.rsp_after_latency (s : State) (hslots : s.slots.length = s.params.latency)
    (h : s.NoResetFor (s.params.latency + 1)) :
    (s.afterCycles (s.params.latency + 1)).rsp = s.portIn.response s.params := by
  have hleft := s.rsp_afterCycles_of_no_reset s.params.latency hslots.ge h
  rw [hslots, Nat.sub_self, List.getElem?_cons_zero, Option.some.injEq] at hleft
  exact hleft.symm

/-- A request presented in the coming cycle is answered with `Exec` of it `LATENCY` cycles later. -/
theorem State.rsp_of_presented (s : State) (op : OpCode) (d : Word) (hs : s.Inv)
    (h : s.NoResetFor (s.params.latency + 1)) (hreq : s.inputs.head? = some (PortIn.present op d)) :
    (s.afterCycles (s.params.latency + 1)).rsp = some (Exec s.params op d) := by
  obtain ⟨hslots, -⟩ := hs
  have hport : s.portIn = PortIn.present op d := by
    rw [State.portIn, List.headD_eq_head?_getD, hreq, Option.getD_some]
  rw [s.rsp_after_latency hslots h, hport, PortIn.response_present]

/-- `Exec` reads no build parameter but `HAS_TOINTEGER` (00_scope.md R8, R9). -/
theorem Exec_congr {p q : Config.Params} (h : p.hasToInteger = q.hasToInteger) (op : OpCode) (d : Word) :
    Exec p op d = Exec q op d := by
  unfold Exec
  rw [h]

/-- Settles O40: both instances answer with `Exec` of the request, which reads `HAS_TOINTEGER` alone. -/
theorem responseDependsOnTheRequestAlone : Obligations.ResponseDependsOnTheRequestAlone := by
  intro s s' op d hs hs' hoption hwindow hwindow' hreq hreq'
  refine ⟨_, _, Exec s.params op d, runCycles_eq _ s, runCycles_eq _ s', s.rsp_of_presented op d hs hwindow hreq, ?_⟩
  rw [Exec_congr hoption]
  exact s'.rsp_of_presented op d hs' hwindow' hreq'

end Sys2Proof.Machine
end

section
/-! PROOFS. The op field of the fixed-width operations (30_encoding.md R62). -/

namespace Sys2Proof

@[simp] theorem opField_encode (i : Instr) : opField (encode i) = opCode i := opField_commandWord _ _

/-- The op code of a fixed-width operation, bit by bit: fixed-width, then its width, then its signedness. -/
theorem opCode_fixedWidth_bits (W : Width) (signed : Bool) (d : Word) :
    (opCode (Instr.fixedWidth W signed d)).getLsbD 2 = false ∧
    ((opCode (Instr.fixedWidth W signed d)).getLsbD 1 = true ↔ W = .w64) ∧
    ((opCode (Instr.fixedWidth W signed d)).getLsbD 0 = true ↔ signed = false) := by
  cases W <;> cases signed <;> simp [Instr.fixedWidth, opCode]

/-- An operation whose op code has bit 2 clear is the fixed-width operation that bits 1 and 0 name. -/
theorem eq_fixedWidth_of_opCode_bit2 {i : Instr} (h : (opCode i).getLsbD 2 = false) :
    i = Instr.fixedWidth (if (opCode i).getLsbD 1 then .w64 else .w32) (!(opCode i).getLsbD 0) i.operand := by
  cases i with
  | toint32 d => simp [opCode, Instr.fixedWidth, Instr.operand]
  | touint32 d => simp [opCode, Instr.fixedWidth, Instr.operand]
  | toint64 d => simp [opCode, Instr.fixedWidth, Instr.operand]
  | touint64 d => simp [opCode, Instr.fixedWidth, Instr.operand]
  | tointeger d => simp [opCode] at h

/-- Every reserved code has bit 2 set (30_encoding.md R64). -/
theorem getLsbD_two_of_reservedOp {p : Config.Params} {op : OpCode} (h : reservedOp p op = true) :
    op.getLsbD 2 = true := by
  simp only [reservedOp, Bool.or_eq_true, Bool.and_eq_true, beq_iff_eq] at h
  obtain ((rfl | rfl) | rfl) | ⟨rfl, -⟩ := h <;> rfl

end Sys2Proof

namespace Sys2Proof.Machine

/-- Settles O3: the encoder by its four op codes; the decoder because a code with bit 2 clear is not reserved, so it
answers with an operation of that code, which its bits determine. -/
theorem opBitsSelectWidthAndSignedness : Obligations.OpBitsSelectWidthAndSignedness := by
  refine ⟨fun W signed d => ?_, fun p op d hbit => ?_⟩
  · rw [opField_encode]
    exact opCode_fixedWidth_bits W signed d
  · obtain ⟨i, hdecode, hop, hoperand, -⟩ | ⟨-, hreserved⟩ := decode_cases p (commandWord op d)
    · rw [opField_commandWord] at hop
      rw [operandField_commandWord] at hoperand
      subst hop hoperand
      rw [hdecode, ← eq_fixedWidth_of_opCode_bit2 hbit]
    · rw [opField_commandWord] at hreserved
      exact absurd ((getLsbD_two_of_reservedOp hreserved).symm.trans hbit) (by decide)

end Sys2Proof.Machine
end

section
/-! PROOFS. The range of the decoded exponent and the operands at its ends (40_decomposer.md R81, R87). -/

namespace Sys2Proof.Machine

/-- Zeros and subnormals together are the operands of the least biased exponent: the mantissa only tells them apart. -/
theorem isZero_or_isSub_iff (bits : Word) : (isZero bits = true ∨ isSub bits = true) ↔ (bexp bits).toNat = 0 := by
  rw [isZero_iff, isSub_iff, ← and_or_left, and_iff_left (em _)]

/-- Infinities and NaNs together are the operands of the greatest biased exponent. -/
theorem isInf_or_isNaN_iff_bexp (bits : Word) :
    (isInf bits = true ∨ isNaN bits = true) ↔ (bexp bits).toNat = 2047 := by
  rw [isInf_iff, isNaN_iff, ← and_or_left, and_iff_left (em _)]

theorem expOf_mem_range (bits : Word) : -1023 ≤ expOf bits ∧ expOf bits ≤ 1024 := by
  have hexp := expOf_eq bits
  have hle := bexp_le bits
  omega

/-- The operand that is the biased exponent `k + 1023` alone, sign and mantissa 0, has the decoded exponent `k`. -/
theorem exists_expOf_eq {k : Int} (hlow : -1023 ≤ k) (hhigh : k ≤ 1024) : ∃ bits : Word, expOf bits = k := by
  obtain ⟨n, hn⟩ : ∃ n : Nat, k + 1023 = n := Int.eq_ofNat_of_zero_le (by omega)
  refine ⟨BitVec.ofNat 64 (n * 2 ^ 52), ?_⟩
  rw [expOf_eq, bexp_ofNat n _ (by omega) rfl]
  omega

/-- Settles O8: `expOf_eq` says that the 12-bit subtraction does not wrap, and the biased exponent is 0 and 2047 at the
ends of its range. -/
theorem decodedExponentNeverWraps : Obligations.DecodedExponentNeverWraps := by
  refine ⟨fun bits => ⟨expOf_eq bits, expOf_mem_range bits⟩, fun k => exists_expOf_eq, fun bits hend => ?_,
    fun bits hend => ?_⟩
  · rw [expOf_eq, (isZero_or_isSub_iff bits).1 hend]
    rfl
  · rw [expOf_eq, (isInf_or_isNaN_iff_bexp bits).1 hend]
    rfl

end Sys2Proof.Machine
end

section
/-! PROOFS. The unsigned converter against its contract: its result as a reduction of the operand's value modulo 2^W
(41_unsigned_converter.md R100). -/

namespace Sys2Proof.Machine

theorem signFactor_of_sign_zero {bits : Word} (h : sign bits = 0#1) : signFactor bits = 1 := by
  rw [signFactor, h]
  rfl

theorem signFactor_of_sign_one {bits : Word} (h : sign bits = 1#1) : signFactor bits = -1 := by
  rw [signFactor, h]
  rfl

/-- Two's-complement negation is negation modulo 2^w. -/
theorem natCast_toNat_neg {w : Nat} (v : BitVec w) : ((-v).toNat : Int) = (-(v.toNat : Int)) % 2 ^ w := by
  rw [BitVec.toNat_neg, Int.natCast_mod, Int.natCast_sub v.isLt.le]
  push_cast
  rw [sub_eq_add_neg, Int.add_emod_left]

/-- `u` is the magnitude wire with the operand's sign, modulo 2^W (R104). -/
theorem signCorrected_toNat (W : Width) (bits : Word) :
    ((signCorrected W bits).toNat : Int) = signFactor bits * (magnitude W bits).toNat % 2 ^ W.bits := by
  unfold signCorrected
  rcases sign_eq_zero_or_one bits with hsign | hsign
  · rw [if_neg (by simp [hsign]), signFactor_of_sign_zero hsign, one_mul]
    exact (Int.emod_eq_of_lt (Int.natCast_nonneg _) (by exact_mod_cast (magnitude W bits).isLt)).symm
  · rw [if_pos hsign, signFactor_of_sign_one hsign, neg_one_mul, ← BitVec.neg_eq_not_add, natCast_toNat_neg]

/-- With a non-negative exponent the result is the signed whole part modulo 2^W: in class HUGE both are 0. -/
theorem toUintWidth_toNat_of_expOf (W : Width) (bits : Word) (e : Nat) (he : expOf bits = e) :
    ((toUintWidth W bits).toNat : Int) = signFactor bits * wholePart (mant bits).toNat e % 2 ^ W.bits := by
  by_cases halign : classOf W (expOf bits) = .align
  · rw [toUintWidth_align W bits halign, signCorrected_toNat, magnitude_toNat W bits e he]
    push_cast
    exact (Int.mod_modEq _ _).mul_left _
  · have hhuge : 52 + W.bits ≤ e := by
      rw [classOf_align] at halign
      omega
    have hdvd : (2 ^ W.bits : Int) ∣ wholePart (mant bits).toNat e := by
      exact_mod_cast Nat.dvd_of_mod_eq_zero (wholePart_huge W (mant bits).toNat e hhuge)
    rw [toUintWidth_not_align W bits halign, Int.emod_eq_zero_of_dvd (hdvd.mul_left _), BitVec.toNat_zero]
    rfl

/-- The first clause of R100. Magnitudes below 1 are class SMALL, and their floor is 0. -/
theorem toUintWidth_toNat_of_finite (W : Width) (bits : Word) (x : ℚ) (h : val bits = .finite x) :
    ((toUintWidth W bits).toNat : Int) = signFactor bits * ⌊|x|⌋ % 2 ^ W.bits := by
  rcases lt_or_ge (expOf bits) 0 with hneg | hnonneg
  · have hfloor : ⌊|x|⌋ = 0 := floor_abs_eq_zero x ((abs_val_lt_one_iff bits x h).2 hneg)
    have hsmall : classOf W (expOf bits) = .small := (classOf_small W _).2 hneg
    rw [toUintWidth_not_align W bits (by simp [hsmall]), hfloor, BitVec.toNat_zero, mul_zero, Int.zero_emod]
    rfl
  · obtain ⟨e, he⟩ := Int.eq_ofNat_of_zero_le hnonneg
    rw [toUintWidth_toNat_of_expOf W bits e he, floor_abs_val bits x h e he]

/-- The second clause of R100: the exponent of an infinity or a NaN is class HUGE at both widths. -/
theorem toUintWidth_of_nonfinite (W : Width) (bits : Word) (h : isInf bits = true ∨ isNaN bits = true) :
    toUintWidth W bits = 0 := by
  have hexp : expOf bits = 1024 := by
    rw [expOf_eq, (isInf_or_isNaN_iff_bexp bits).1 h]
    rfl
  have hhuge : classOf W (expOf bits) = .huge := by
    rw [hexp]
    cases W <;> rfl
  exact toUintWidth_not_align W bits (by simp [hhuge])

/-- Settles O12: for finite operands by the sign of the exponent, for the others by their class. -/
theorem unsignedConverterMeetsTheContract : Obligations.UnsignedConverterMeetsTheContract :=
  fun W bits => ⟨toUintWidth_toNat_of_finite W bits, toUintWidth_of_nonfinite W bits⟩

end Sys2Proof.Machine
end

section
/-! PROOFS. ToInteger against its contract: the value of its result is the operand truncated toward zero
(43_tointeger.md R141). -/

namespace Sys2Proof.Machine

theorem val_of_isZero {bits : Word} (h : isZero bits = true) : val bits = .finite 0 := by
  obtain ⟨hexp, hmant⟩ := (isZero_iff bits).1 h
  simp [val, hexp, hmant]

theorem isZero_signedZero (d : Word) : isZero (signedZero d) = true := by
  obtain ⟨-, hexp, hmant⟩ := signedZero_fields d
  rw [isZero_iff, hexp, hmant]
  exact ⟨rfl, rfl⟩

/-- A mantissa without bits below the binary point loses nothing in its whole part. From `e = 52` on it has none. -/
theorem wholePart_exact {m e : Nat} (h : 2 ^ (52 - e) ∣ m) :
    (wholePart m e : ℚ) = (2 ^ 52 + m) * 2 ^ ((e : ℤ) - 52) := by
  unfold wholePart
  split
  next hge =>
    rw [show (e : ℤ) - 52 = ((e - 52 : ℕ) : ℤ) by omega, zpow_natCast]
    push_cast
    rfl
  next hlt =>
    have hdvd : 2 ^ (52 - e) ∣ 2 ^ 52 + m := Nat.dvd_add (pow_dvd_pow 2 (Nat.sub_le 52 e)) h
    rw [show (e : ℤ) - 52 = -((52 - e : ℕ) : ℤ) by omega, zpow_neg, zpow_natCast,
      Nat.cast_div hdvd (by positivity)]
    push_cast
    rfl

/-- Clearing the bits below the binary point leaves the whole part. -/
theorem wholePart_clear (m e : Nat) : wholePart (m / 2 ^ (52 - e) * 2 ^ (52 - e)) e = wholePart m e := by
  rw [wholePart_eq, wholePart_eq, mantissaPart, mantissaPart, Nat.mul_div_cancel _ (by positivity)]
  split
  next hge => rw [Nat.sub_eq_zero_of_le hge, pow_zero, Nat.div_one, Nat.mul_one]
  next => rfl

/-- An operand with a non-negative exponent and no bit below the binary point is its signed whole part. -/
theorem val_of_integral {r : Word} {e : Nat} (he : expOf r = e) (hmax : e ≤ 1023)
    (h : 2 ^ (52 - e) ∣ (mant r).toNat) :
    val r = .finite ((signFactor r * wholePart (mant r).toNat e : ℤ) : ℚ) := by
  have hexp := expOf_eq r
  have hval := val_normal r (by omega) (by omega)
  rw [hval, val_eq_signFactor_mul_abs r _ hval, abs_normal, he, ← wholePart_exact h]
  push_cast
  rfl

/-- In the branch that clears the fraction bits, the result is the operand's signed whole part. -/
theorem val_clearLow {d : Word} {e : Nat} (he : expOf d = e) (hlt : e < 52) :
    val (clearLow d (52 - e)) = .finite ((signFactor d * wholePart (mant d).toNat e : ℤ) : ℚ) := by
  obtain ⟨hsign, hexp, hmant⟩ := clearLow_fields d (52 - e) (Nat.sub_le 52 e)
  have hintegral : 2 ^ (52 - e) ∣ (mant (clearLow d (52 - e))).toNat := hmant ▸ Nat.dvd_mul_left _ _
  rw [val_of_integral ((expOf_congr hexp).trans he) (by omega) hintegral, signFactor_congr hsign, hmant,
    wholePart_clear]

theorem truncate_val_eq_wholePart {d : Word} {x : ℚ} (h : val d = .finite x) {e : Nat} (he : expOf d = e) :
    truncate x = signFactor d * wholePart (mant d).toNat e := by
  rw [truncate_eq d x (val_eq_signFactor_mul_abs d x h), floor_abs_val d x h e he]

theorem truncate_val_eq_zero {d : Word} {x : ℚ} (h : val d = .finite x) (he : expOf d < 0) : truncate x = 0 := by
  rw [truncate_eq d x (val_eq_signFactor_mul_abs d x h), floor_abs_eq_zero x ((abs_val_lt_one_iff d x h).2 he),
    mul_zero]

theorem toInteger_of_isZero {d : Word} (h : isZero d = true) : toInteger d = d := by rw [toInteger, if_pos h]

theorem toInteger_of_isNaN {d : Word} (h : isNaN d = true) : toInteger d = 0 := by
  rcases toInteger_cases d with ⟨-, heq⟩ | ⟨hnot, -⟩ | ⟨-, -, hnot, -⟩ | ⟨-, -, -, hnot, -⟩
  · exact heq
  all_goals exact absurd (h.symm.trans hnot) (by decide)

theorem toInteger_of_isInf {d : Word} (h : isInf d = true) : toInteger d = d := by
  obtain ⟨hexp, hmant⟩ := (isInf_iff d).1 h
  have he := expOf_eq d
  rcases toInteger_cases d with ⟨hnan, -⟩ | ⟨-, heq, -⟩ | ⟨-, hneg, -⟩ | ⟨e, he', hlt, -⟩
  · exact absurd hmant ((isNaN_iff d).1 hnan).2
  · exact heq
  · omega
  · omega

/-- The last clause of R141, branch by branch: an unchanged finite operand is a zero or already integral, a signed zero
answers a magnitude below 1, and the cleared fraction bits are what truncation takes away. -/
theorem val_toInteger {d : Word} {x : ℚ} (h : val d = .finite x) : val (toInteger d) = .finite (truncate x) := by
  have hfinite : ¬ (isInf d = true ∨ isNaN d = true) := fun hnot => (isInf_or_isNaN_iff d).1 hnot ⟨x, h⟩
  rcases toInteger_cases d with ⟨hnan, -⟩ | ⟨-, heq, hkept⟩ | ⟨-, hneg, -, heq⟩ | ⟨e, he, hlt, -, heq⟩
  · exact absurd (.inr hnan) hfinite
  · rw [heq]
    rcases hkept with hzero | hinf | ⟨hge, hle⟩
    · obtain ⟨hexp, -⟩ := (isZero_iff d).1 hzero
      rw [truncate_val_eq_zero h (by rw [expOf_eq, hexp]; decide), val_of_isZero hzero, Int.cast_zero]
    · exact absurd (.inl hinf) hfinite
    · obtain ⟨e, he⟩ := Int.eq_ofNat_of_zero_le (show 0 ≤ expOf d by omega)
      have hintegral : 2 ^ (52 - e) ∣ (mant d).toNat := by
        rw [Nat.sub_eq_zero_of_le (by omega), pow_zero]
        exact Nat.one_dvd _
      rw [truncate_val_eq_wholePart h he, val_of_integral he (by omega) hintegral]
  · rw [heq, truncate_val_eq_zero h hneg, val_of_isZero (isZero_signedZero d), Int.cast_zero]
  · rw [heq, truncate_val_eq_wholePart h he, val_clearLow he hlt]

/-- Settles O20: zeros, NaNs and infinities by their branches, and finite operands by `val_toInteger`. -/
theorem toIntegerTruncatesTowardZero : Obligations.ToIntegerTruncatesTowardZero :=
  fun _ => ⟨toInteger_of_isZero, toInteger_of_isNaN, toInteger_of_isInf, fun _ => val_toInteger⟩

end Sys2Proof.Machine
end

section
/-! PROOFS. The parameter `FASTPATH` commutes with every cycle (44_fastpath.md R162). -/

namespace Sys2Proof.Machine

/-- A cycle's inputs are answered alike by instances that agree on `HAS_TOINTEGER` (00_scope.md R8, R9). -/
theorem PortIn.response_congr {p q : Config.Params} (h : p.hasToInteger = q.hasToInteger) (pin : PortIn) :
    pin.response p = pin.response q := by
  unfold PortIn.response
  cases sample pin with
  | reset => rfl
  | idle => rfl
  | request op d => exact congrArg some (Exec_congr h op d)

/-- Rebuilding with another `FASTPATH` and running one cycle commute: a reset cycle reads `LATENCY` alone, and without
a reset the incoming response is the same in both builds. -/
theorem State.after_withFastPath (b : Bool) (s : State) : (s.withFastPath b).after = s.after.withFastPath b := by
  have hport : (s.withFastPath b).portIn = s.portIn := rfl
  cases hrst : s.portIn.rst with
  | true =>
    rw [State.after_of_reset hrst, State.after_of_reset (hport ▸ hrst)]
    rfl
  | false =>
    have hresponse : s.portIn.response (s.withFastPath b).params = s.portIn.response s.params :=
      PortIn.response_congr rfl s.portIn
    rw [State.after_of_no_reset hrst, State.after_of_no_reset (hport ▸ hrst), hport, hresponse]
    rfl

/-- Settles O41: the next state is `after`, which commutes with the change of `FASTPATH`. -/
theorem fastPathHasNoEffect : Obligations.FastPathHasNoEffect := by
  intro s t b h
  rw [step_eq_after, Host.Outcome.next.injEq] at h
  rw [step_eq_after, State.after_withFastPath, h]

end Sys2Proof.Machine
end

section
/-! PROOFS. IllegalOp is the answer to the reserved op codes and to nothing else, and a request is answered in the cycle
that samples it, legal or not (60_exceptions.md R170, R171). -/

namespace Sys2Proof.Machine

/-- The step that samples the presented request answers it with `Exec` of it; no reset can stand in that cycle. -/
theorem step_of_presented {s : State} {op : OpCode} {d : Word} {rest : List PortIn}
    (h : s.inputs = PortIn.present op d :: rest) :
    step s = .next ({ s with inputs := rest }.answer (Exec s.params op d)) := by
  have hport : s.portIn = PortIn.present op d := s.portIn_cons _ rest h
  have hrst : s.portIn.rst = false := by rw [hport]; rfl
  rw [step_of_no_reset hrst, hport, PortIn.response_present, s.dropInput_cons _ rest h]
  rfl

/-- A request is answered with a result or with IllegalOp of its own op code. -/
theorem Exec_cases (p : Config.Params) (op : OpCode) (d : Word) :
    (∃ r, Exec p op d = .result r) ∨ Exec p op d = .illegalOp op := by
  unfold Exec
  split_ifs
  case neg => exact .inr rfl
  all_goals exact .inl ⟨_, rfl⟩

theorem Exec_of_reservedOp {p : Config.Params} {op : OpCode} (h : reservedOp p op = true) (d : Word) :
    Exec p op d = .illegalOp op := by
  obtain ⟨r, hr⟩ | hillegal := Exec_cases p op d
  · exact absurd (Exec_ill p op d) (by simp [hr, h])
  · exact hillegal

theorem exists_Exec_eq_result {p : Config.Params} {op : OpCode} (h : reservedOp p op = false) (d : Word) :
    ∃ r, Exec p op d = .result r := by
  obtain hresult | hillegal := Exec_cases p op d
  · exact hresult
  · exact absurd (Exec_ill p op d) (by simp [hillegal, h])

/-- The op code of an operation that the instance has is not reserved in it (30_encoding.md R61, R64). -/
theorem reservedOp_opCode {p : Config.Params} {i : Instr} (h : i.wellFormed p = true) :
    reservedOp p (opCode i) = false := by
  have hfields : Laws.EncodedFields.Statement i := by
    cases i with
    | toint32 d => exact Laws.EncodedFields.toint32 d
    | touint32 d => exact Laws.EncodedFields.touint32 d
    | toint64 d => exact Laws.EncodedFields.toint64 d
    | touint64 d => exact Laws.EncodedFields.touint64 d
    | tointeger d => exact Laws.EncodedFields.tointeger d
  obtain ⟨-, -, hdefined⟩ := hfields
  exact hdefined p h

/-- Settles O29: the sampling step answers with `Exec`, whose `ill` is 1 for the reserved codes only. -/
theorem noOperandMakesAnOperationFail : Obligations.NoOperandMakesAnOperationFail :=
  fun s op d _ hreq hdefined => ⟨step_of_presented hreq, (Exec_ill s.params op d).trans hdefined⟩

/-- Settles O30: a reserved code by the same sampling step, whose answer is then IllegalOp; an operation the instance
has because its op code is not reserved. -/
theorem illegalOpIsReportedInItsOwnResponse : Obligations.IllegalOpIsReportedInItsOwnResponse := by
  refine ⟨fun s op d rest hreq hreserved => ⟨?_, Response.ill_illegalOp op⟩, fun i s hwf => ?_⟩
  · rw [step_of_presented hreq, Exec_of_reservedOp hreserved]
  · obtain ⟨r, hr⟩ := exists_Exec_eq_result (reservedOp_opCode hwf) i.operand
    exact ⟨r, by rw [exec_eq, hr]⟩

end Sys2Proof.Machine
end

section
/-! PROOFS. The reset input: one cycle of it clears the block, and a request is answered exactly when none falls into
its window (70_reset_and_hazards.md R190 to R192). -/

namespace Sys2Proof.Machine

/-- Once the slots are cleared, what is sampled from then on needs more than `LATENCY` cycles to reach the port. -/
theorem State.rsp_afterCycles_of_cleared (n : Nat) (s : State) (hslots : s.slots = List.replicate s.params.latency none)
    (hrsp : s.rsp = none) (hn : n ≤ s.params.latency) (h : s.NoResetFor n) : (s.afterCycles n).rsp = none := by
  cases n with
  | zero => exact hrsp
  | succ m =>
    have hlength : s.slots.length = s.params.latency := by rw [hslots, List.length_replicate]
    have hleft := s.rsp_afterCycles_of_no_reset m (by omega) h
    -- the entry that leaves is one of the cleared slots, not the one that comes in this cycle
    rw [hlength, show s.params.latency - m = s.params.latency - (m + 1) + 1 by omega, List.getElem?_cons_succ, hslots,
      List.getElem?_replicate_of_lt (by omega), Option.some.injEq] at hleft
    exact hleft.symm

/-- A reset among `n` cycles, no more than the window has, leaves nothing on the port in the last of them. The induction
finds the last reset: after it the slots are cleared and no reset follows. -/
theorem State.rsp_afterCycles_of_reset (n : Nat) (s : State) (hn : n ≤ s.params.latency + 1) (h : ¬ s.NoResetFor n) :
    (s.afterCycles n).rsp = none := by
  induction n generalizing s with
  | zero => exact absurd rfl h
  | succ n ih =>
    rw [State.afterCycles_succ]
    by_cases hlater : s.after.NoResetFor n
    · have hrst : s.portIn.rst = true := by
        rw [← Bool.not_eq_false]
        exact fun hlow => h ((s.noResetFor_succ n).2 ⟨hlow, hlater⟩)
      have hcleared := State.after_of_reset hrst
      have hn' : n ≤ s.after.params.latency := by
        rw [State.after_params]
        omega
      exact s.after.rsp_afterCycles_of_cleared n (by simp [hcleared]) (by simp [hcleared]) hn' hlater
    · exact ih s.after (by rw [State.after_params]; omega) hlater

/-- Settles O38: without a reset the request sampled first has just moved through all the slots; with one, the last
reset of the window has cleared them too late for anything to follow. -/
theorem answeredExactlyWhenNoResetInTheWindow : Obligations.AnsweredExactlyWhenNoResetInTheWindow := by
  rintro s ⟨hslots, -⟩
  exact ⟨fun hwindow => ⟨_, runCycles_eq _ s, s.rsp_after_latency hslots hwindow⟩,
    fun hreset => ⟨_, runCycles_eq _ s, s.rsp_afterCycles_of_reset _ le_rfl hreset⟩⟩

/-- Settles O33: the step is the reset cycle, whatever the other inputs carry. -/
theorem resetCycleClearsEverySlot : Obligations.ResetCycleClearsEverySlot := by
  intro s pin rest hinputs hrst
  have hstep : step s = .next { s with inputs := rest }.resetCycle := by
    rw [← s.dropInput_cons pin rest hinputs]
    exact step_of_reset (by rw [s.portIn_cons pin rest hinputs, hrst])
  exact ⟨_, hstep, rfl, rfl, rfl, rfl, rfl⟩

end Sys2Proof.Machine
end

section
/-! PROOFS. The decoder, the encoder and the rows of the opcode table: each reads the op field alone, and the operand
stands beside it verbatim (30_encoding.md R60 to R64). -/

namespace Sys2Proof

@[simp] theorem operandField_encode (i : Instr) : operandField (encode i) = i.operand := operandField_commandWord _ _

/-- An instance decodes the encoding of an operation it has to that operation. -/
theorem decode_encode {p : Config.Params} {i : Instr} (h : i.wellFormed p = true) : decode p (encode i) = .ok i := by
  rw [decode, opField_encode, operandField_encode]
  cases i with
  | toint32 d => rfl
  | touint32 d => rfl
  | toint64 d => rfl
  | touint64 d => rfl
  | tointeger d => exact if_pos (show _ ∧ _ from ⟨rfl, h⟩)

/-- What the decoder answers is an operation the instance has, and the word is its encoding. -/
theorem wellFormed_and_encode_of_decode {p : Config.Params} {cw : CommandWord} {i : Instr} (h : decode p cw = .ok i) :
    i.wellFormed p = true ∧ encode i = cw := by
  obtain ⟨j, hdecode, hop, hoperand, hwf⟩ | ⟨herror, -⟩ := decode_cases p cw
  · obtain rfl : j = i := Except.ok.inj (hdecode.symm.trans h)
    exact ⟨hwf, by rw [encode, hop, hoperand, commandWord_fields]⟩
  · exact absurd (herror.symm.trans h) (by simp)

/-- A word whose op code is not reserved decodes, to an operation with its two fields. -/
theorem exists_decode_of_not_reserved {p : Config.Params} {cw : CommandWord} (h : reservedOp p (opField cw) = false) :
    ∃ i, decode p cw = .ok i ∧ opCode i = opField cw ∧ i.operand = operandField cw := by
  obtain ⟨i, hdecode, hop, hoperand, -⟩ | ⟨-, hreserved⟩ := decode_cases p cw
  · exact ⟨i, hdecode, hop, hoperand⟩
  · exact absurd (hreserved.symm.trans h) (by decide)

/-- A row of the table fixes the three bits of the op code and no other. -/
theorem tableRow_eq (i : Instr) : tableRow i = { pattern := commandWord (opCode i) 0, mask := commandWord 7#3 0 } := by
  cases i <;> simp only [tableRow, opCode] <;> decide

theorem and_opMask (cw : CommandWord) : cw &&& commandWord 7#3 0 = commandWord (opField cw) 0 := by
  conv_lhs => rw [← commandWord_fields cw]
  rw [commandWord, commandWord, commandWord, BitVec.and_append]
  congr 1
  · exact BitVec.and_allOnes
  · exact BitVec.and_zero

/-- A word belongs to the row of its op code. -/
theorem tableRow_hits_iff (i : Instr) (cw : CommandWord) : (tableRow i).hits cw = true ↔ opCode i = opField cw := by
  rw [tableRow_eq, TableRow.hits, and_opMask, beq_iff_eq]
  constructor
  · intro h
    simpa using (congrArg opField h).symm
  · intro h
    rw [h]

/-- R64's list, in the order of the spec. -/
theorem reservedOp_iff (p : Config.Params) (op : OpCode) :
    reservedOp p op = true ↔ op = 5#3 ∨ op = 6#3 ∨ op = 7#3 ∨ (op = 4#3 ∧ p.hasToInteger = false) := by
  simp [reservedOp, or_assoc]

end Sys2Proof

namespace Sys2Proof.Machine

/-- The decoder refuses exactly the reserved codes, by name. -/
theorem decode_eq_reserved_iff (p : Config.Params) (op : OpCode) (d : Word) :
    decode p (commandWord op d) = .error (.reserved op) ↔ reservedOp p op = true := by
  obtain ⟨i, hdecode, hop, -, hwf⟩ | ⟨hdecode, hreserved⟩ := decode_cases p (commandWord op d)
  · rw [opField_commandWord] at hop
    rw [hdecode, ← hop, reservedOp_opCode hwf]
    simp
  · rw [opField_commandWord] at hdecode hreserved
    exact iff_of_true hdecode hreserved

/-- Settles O1: forwards by what the decoder can answer, backwards because an encoding decodes. -/
theorem decodeAndEncodeAgree : Obligations.DecodeAndEncodeAgree := by
  refine fun p cw i => ⟨wellFormed_and_encode_of_decode, ?_⟩
  rintro ⟨hwf, rfl⟩
  exact decode_encode hwf

/-- Settles O4: membership in a row is equality of op codes, and the decoder answers with the word's own. -/
theorem decoderFollowsTheOpcodeTable : Obligations.DecoderFollowsTheOpcodeTable := by
  refine fun p cw i => ⟨fun hdecode => ?_, fun hhit hwf => ?_⟩
  · obtain ⟨-, rfl⟩ := wellFormed_and_encode_of_decode hdecode
    simp [tableRow_hits_iff]
  · have hop := (tableRow_hits_iff i cw).1 hhit
    have hdefined := reservedOp_opCode hwf
    rw [hop] at hdefined ⊢
    exact exists_decode_of_not_reserved hdefined

/-- Settles O2: the decoder refuses the reserved codes, and they are R64's list. -/
theorem reservedCodesAreExactlyTheListed : Obligations.ReservedCodesAreExactlyTheListed :=
  fun p op d => (decode_eq_reserved_iff p op d).trans (reservedOp_iff p op)

/-- Settles O5: the five words are closed terms, so the decoder computes each answer. -/
theorem sampleWordsDecode : Obligations.SampleWordsDecode :=
  ⟨by decide, by decide, by decide, by decide, by decide⟩

end Sys2Proof.Machine
end

section
/-! PROOFS. The invariant: reset satisfies it and every step keeps it (10_state.md R28 to R31, 60_exceptions.md
R171). -/

namespace Sys2Proof.Machine

/-- A response reports IllegalOp only for a code the instance has reserved (60_exceptions.md R171). -/
theorem Response.lawful_Exec (p : Config.Params) (op : OpCode) (d : Word) : (Exec p op d).lawful p = true := by
  obtain ⟨r, hresult⟩ | hillegal := Exec_cases p op d
  · rw [hresult]
    rfl
  · have hill := Exec_ill p op d
    rw [hillegal] at hill ⊢
    exact hill.symm

theorem PortIn.all_lawful_response (p : Config.Params) (pin : PortIn) :
    (pin.response p).all (Response.lawful p) = true := by
  unfold PortIn.response
  cases sample pin with
  | reset => rfl
  | idle => rfl
  | request op d => exact Response.lawful_Exec p op d

theorem State.Inv.dropInput {s : State} (h : s.Inv) : s.dropInput.Inv := h

/-- A cycle without reset keeps the invariant when a lawful response comes in: what leaves is one of the slots or the
newcomer, and it is the last response read. -/
theorem State.Inv.clock {s : State} (h : s.Inv) {x : Option Response}
    (hx : x.all (Response.lawful s.params) = true) : (s.clock x).Inv := by
  obtain ⟨hlength, -, hslots, hreceived⟩ := h
  have hentries : ∀ slot ∈ x :: s.slots, slot.all (Response.lawful s.params) = true := by
    rw [List.all_eq_true] at hslots
    exact List.forall_mem_cons.2 ⟨hx, hslots⟩
  have hleaving := hentries (s.slots.getLastD x) List.getLastD_mem_cons
  refine ⟨?_, ?_, ?_, ?_⟩
  · simp [hlength]
  · unfold State.rspRecorded
    rw [State.clock_rsp, State.clock_received]
    cases s.slots.getLastD x <;> simp
  · rw [State.clock_slots, State.clock_params, List.all_eq_true]
    exact fun slot hslot => hentries slot (List.mem_of_mem_dropLast hslot)
  · rw [State.clock_received, State.clock_params, List.all_append, hreceived, Bool.true_and]
    cases hlast : s.slots.getLastD x with
    | none => rfl
    | some r =>
      rw [hlast] at hleaving
      simpa using hleaving

/-- A reset cycle keeps the invariant: it clears the slots and the port. -/
theorem State.Inv.resetCycle {s : State} (h : s.Inv) : s.resetCycle.Inv := by
  obtain ⟨-, -, -, hreceived⟩ := h
  exact ⟨by simp, rfl, by simp, hreceived⟩

theorem State.inv_resetOf (p : Config.Params) : (State.resetOf p).Inv := ⟨by simp, rfl, by simp, rfl⟩

/-- Settles O36: the reset state is the baseline's `resetOf`. -/
theorem resetSatisfiesTheInvariant : Obligations.ResetSatisfiesTheInvariant :=
  ⟨State.inv_resetOf _, State.inv_resetOf⟩

/-- Settles O37: a step is a reset cycle or takes in the lawful response to what it sampled. -/
theorem stepKeepsTheInvariant : Obligations.StepKeepsTheInvariant := by
  intro s t hs hstep
  obtain ⟨-, rfl⟩ | ⟨-, rfl⟩ := step_cases hstep
  · exact hs.dropInput.resetCycle
  · exact hs.dropInput.clock (PortIn.all_lawful_response s.params s.portIn)

end Sys2Proof.Machine
end

section
/-! PROOFS. One cycle: what an operation leaves unchanged, which inputs a step reads, and what the ports show
(10_state.md R27, R28, R32; 60_exceptions.md R181). -/

namespace Sys2Proof.Machine

/-- Settles O28: every operation is an answer, and the fields of an answer are known. -/
theorem operationsChangeNothingElse : Obligations.OperationsChangeNothingElse := by
  intro i s t h
  rw [exec_eq, Host.Outcome.next.injEq] at h
  subst h
  exact ⟨rfl, rfl, rfl, rfl, rfl, rfl⟩

/-- Settles O31: the step answers with `Exec` of the request, and so does the decoded operation, which has the request's
op code and operand. -/
theorem stepRunsTheDecodedOperation : Obligations.StepRunsTheDecodedOperation := by
  intro s op d rest i hreq hdecode
  obtain ⟨-, hword⟩ := wellFormed_and_encode_of_decode hdecode
  have hop : opCode i = op := by simpa using congrArg opField hword
  have hoperand : i.operand = d := by simpa using congrArg operandField hword
  rw [step_of_presented hreq, exec_eq, hop, hoperand]

/-- Settles O32: the next state is `after`. -/
theorem everyStepAnswersANextState : Obligations.EveryStepAnswersANextState := fun s => ⟨s.after, step_eq_after s⟩

/-- The request wires count only in a cycle that samples them (R32). -/
theorem sample_eq_of_not_sampled {pin pin' : PortIn} (hrst : pin.rst = pin'.rst) (hvalid : pin.reqValid = pin'.reqValid)
    (h : pin.rst = true ∨ pin.reqValid = false) : sample pin = sample pin' := by
  unfold sample
  rw [← hrst, ← hvalid]
  rcases h with h | h
  · rw [if_pos h, if_pos h]
  · rw [h, if_neg Bool.false_ne_true, if_neg Bool.false_ne_true]

/-- A step reads the coming cycle's inputs through `sample` alone. -/
theorem step_cons (s : State) (pin : PortIn) (rest : List PortIn) :
    step { s with inputs := pin :: rest } = runCycle (sample pin) { s with inputs := rest } := rfl

/-- Settles O34: the two cycles sample the same. -/
theorem unsampledInputsAreIgnored : Obligations.UnsampledInputsAreIgnored := by
  intro s pin pin' rest hrst hvalid h
  rw [step_cons, step_cons, sample_eq_of_not_sampled hrst hvalid h]

/-- Settles O35: `resetOf` fills the slots with `LATENCY` invalid ones. -/
theorem resetLeavesNothingInFlight : Obligations.ResetLeavesNothingInFlight :=
  ⟨fun _ => ⟨by simp, by simp, rfl, rfl⟩, rfl, rfl, rfl⟩

/-- In the cycle of a result the output ports are fixed by it (R27, R181). -/
theorem State.portOut_of_result {s : State} {r : Word} (h : s.rsp = some (.result r)) :
    s.portOut = { rspValid := true, rspIll := false, rspR := r } := by
  simp [State.portOut, State.rspValid, State.rspIll, State.rspR, h]

/-- Settles O44: the sampling step reads the request through `Exec` alone, and the ports read the response alone. -/
theorem intermediateSignalsReachNoPort : Obligations.IntermediateSignalsReachNoPort := by
  refine ⟨fun s op op' d d' rest h => ⟨_, step_of_presented rfl, ?_⟩, fun s r => s.portOut_of_result⟩
  rw [step_of_presented rfl]
  exact congrArg (fun r => Host.Outcome.next (State.answer r _)) h.symm

end Sys2Proof.Machine
end

section
/-! PROOFS. The canonical assembler line (30_encoding.md R67): it splits into the words it was put together from, and
each word reads back as what it was written for. -/

namespace Sys2Proof.Machine

/-- A character that neither ends a word nor starts a comment. -/
def isWordChar (c : Char) : Bool := c != ' ' && c != '\t' && c != ';'

/-- What `splitWords` takes from a line in one piece. -/
structure IsWord (word : List Char) : Prop where
  ne_nil : word ≠ []
  all_isWordChar : word.all isWordChar = true

/-- The characters of a word go into the run being read. -/
theorem splitWords_append (word rest : List Char) (h : word.all isWordChar = true) (current : List Char) :
    splitWords current (word ++ rest) = splitWords (word.reverse ++ current) rest := by
  induction word generalizing current with
  | nil => rfl
  | cons c cs ih =>
    rw [List.all_cons, Bool.and_eq_true] at h
    obtain ⟨hc, hcs⟩ := h
    have hblank : ¬ (c = ' ' ∨ c = '\t') := by
      simp only [isWordChar, Bool.and_eq_true, bne_iff_ne] at hc
      tauto
    rw [List.cons_append, splitWords, if_neg hblank, ih hcs, List.reverse_cons, List.append_assoc]
    rfl

theorem IsWord.splitWords_blank {word : List Char} (h : IsWord word) (rest : List Char) :
    splitWords [] (word ++ ' ' :: rest) = word :: splitWords [] rest := by
  have hne : (word.reverse ++ []).isEmpty = false := by simpa using h.ne_nil
  rw [splitWords_append word _ h.all_isWordChar, splitWords, if_pos (.inl rfl), hne]
  simp

theorem IsWord.splitWords_last {word : List Char} (h : IsWord word) : splitWords [] word = [word] := by
  have hread := splitWords_append word [] h.all_isWordChar []
  rw [List.append_nil, List.append_nil, splitWords_end _ (by simpa using h.ne_nil), List.reverse_reverse] at hread
  exact hread

theorem IsWord.no_semicolon {word : List Char} (h : IsWord word) : word.all (· != ';') = true := by
  have hchars := List.all_eq_true.1 h.all_isWordChar
  refine List.all_eq_true.2 fun c hc => ?_
  have hchar := hchars c hc
  simp only [isWordChar, Bool.and_eq_true] at hchar
  exact hchar.2

/-- A line of a mnemonic and an operand assembles to their command word. -/
theorem assembleLine_mnemonic {mnemonic operand : List Char} (hm : IsWord mnemonic) (ho : IsWord operand)
    {op : OpCode} {d : Word} (hop : opOfMnemonic mnemonic = some op) (hd : parseOperand operand = some d) :
    assembleLine (mnemonic ++ ' ' :: operand) = some (commandWord op d) := by
  have hcomment : dropComment (mnemonic ++ ' ' :: operand) = mnemonic ++ ' ' :: operand :=
    dropComment_of_no_semicolon _ (by simp [-List.all_eq_true, hm.no_semicolon, ho.no_semicolon])
  rw [assembleLine, hcomment, hm.splitWords_blank, ho.splitWords_last]
  simp only [hop, hd]

/-- A line of `.op`, a number and an operand assembles to their command word. -/
theorem assembleLine_raw {number operand : List Char} (hn : IsWord number) (ho : IsWord operand)
    {op : OpCode} {d : Word} (hop : parseOp number = some op) (hd : parseOperand operand = some d) :
    assembleLine (['.', 'o', 'p'] ++ ' ' :: (number ++ ' ' :: operand)) = some (commandWord op d) := by
  have hdirective : IsWord ['.', 'o', 'p'] := ⟨by simp, by decide⟩
  have hcomment : dropComment (['.', 'o', 'p'] ++ ' ' :: (number ++ ' ' :: operand)) =
      ['.', 'o', 'p'] ++ ' ' :: (number ++ ' ' :: operand) :=
    dropComment_of_no_semicolon _ (by simp [-List.all_eq_true, hn.no_semicolon, ho.no_semicolon])
  rw [assembleLine, hcomment, hdirective.splitWords_blank, hn.splitWords_blank, ho.splitWords_last]
  simp only [hop, hd]

theorem isWordChar_hexChar (k : Nat) (h : k < 16) : isWordChar (hexChar k) = true := by
  revert k
  decide

theorem all_isWordChar_hexDigits (n v : Nat) : (hexDigits n v).all isWordChar = true := by
  induction n generalizing v with
  | zero => rfl
  | succ n ih =>
    rw [hexDigits, List.all_append, ih, List.all_cons, isWordChar_hexChar _ (Nat.mod_lt v (by decide))]
    rfl

/-- The last `n` hexadecimal digits of a number read back as the number modulo 16^n. -/
theorem hexNumber_hexDigits (n v : Nat) : hexNumber 0 (hexDigits n v) = some (v % 16 ^ n) := by
  induction n generalizing v with
  | zero => simp [hexDigits, hexNumber, Nat.mod_one]
  | succ n ih =>
    rw [hexDigits, hexNumber_append, ih, Option.bind_some, hexNumber, hexDigit_hexChar _ (Nat.mod_lt v (by decide)),
      Nat.pow_succ', Nat.mod_mul, Nat.add_comm]
    rfl

theorem isWord_canonicalOperand (d : Word) : IsWord (canonicalOperand d) where
  ne_nil := List.cons_ne_nil _ _
  all_isWordChar := by
    rw [canonicalOperand, List.all_cons, List.all_cons, all_isWordChar_hexDigits]
    decide

/-- The canonical operand stands for its pattern. -/
theorem parseOperand_canonicalOperand (d : Word) : parseOperand (canonicalOperand d) = some d := by
  have hdigits : hexNumber 0 (hexDigits 16 d.toNat) = some d.toNat := by
    rw [hexNumber_hexDigits, show 16 ^ 16 = 2 ^ 64 by decide, Nat.mod_eq_of_lt d.isLt]
  simp [parseOperand, canonicalOperand, hdigits]

theorem isWord_mnemonicText (i : Instr) : IsWord (mnemonicText i) := by
  cases i <;> exact ⟨List.cons_ne_nil _ _, rfl⟩

theorem opOfMnemonic_mnemonicText (i : Instr) : opOfMnemonic (mnemonicText i) = some (opCode i) := by
  cases i <;> rfl

theorem parseOp_hexChar (op : OpCode) : parseOp [hexChar op.toNat] = some op := by
  revert op
  decide

/-- Settles O6: both lines split into their words, which read back as the op code and the operand. -/
theorem canonicalLinesAssemble : Obligations.CanonicalLinesAssemble := by
  refine ⟨fun i => ?_, fun op d => ?_⟩
  · exact assembleLine_mnemonic (isWord_mnemonicText i) (isWord_canonicalOperand _) (opOfMnemonic_mnemonicText i)
      (parseOperand_canonicalOperand _)
  · have hdigit : IsWord [hexChar op.toNat] := ⟨List.cons_ne_nil _ _, by
      rw [List.all_cons, isWordChar_hexChar _ (by have := op.isLt; omega)]
      rfl⟩
    exact assembleLine_raw hdigit (isWord_canonicalOperand d) (parseOp_hexChar op) (parseOperand_canonicalOperand d)

end Sys2Proof.Machine
end

section
/-! PROOFS. The byte lanes of the operand (20_memory.md R42). -/

namespace Sys2Proof.Machine

/-- Lane `k` of a pattern put together from lanes is the `k`-th of them. -/
theorem lane_ofLanes (bytes : List Byte) (k : Nat) (hk : k < 8) : lane (ofLanes bytes) k = bytes.getD k 0 := by
  induction bytes generalizing k with
  | nil => simp [ofLanes, lane]
  | cons b bs ih =>
    cases k with
    | zero =>
      apply BitVec.eq_of_getLsbD_eq
      intro i hi
      simp [ofLanes, lane, hi, show i < 64 by omega]
    | succ k =>
      -- the first byte lies below lane `k + 1`, and the shift moves lane `k` of the others there
      rw [List.getD_cons_succ, ← ih k (by omega)]
      apply BitVec.eq_of_getLsbD_eq
      intro i hi
      have hmoved : 8 * (k + 1) + i = 8 * k + i + 8 := by omega
      simp only [lane, ofLanes, BitVec.getLsbD_extractLsb', BitVec.getLsbD_or, BitVec.getLsbD_setWidth,
        BitVec.getLsbD_shiftLeft, hi, hmoved, BitVec.getLsbD_of_ge b (8 * k + i + 8) (by omega)]
      simp [show 8 * k + i + 8 < 64 by omega]

/-- Settles O7: a big-endian requester drives the same lanes for the bytes in reverse. -/
theorem byteLanesOfTheOperand : Obligations.ByteLanesOfTheOperand := by
  intro bytes k hlength hk
  refine ⟨lane_ofLanes bytes k hk, ?_⟩
  rw [ofBytesBE, lane_ofLanes _ k hk, List.getD_eq_getElem?_getD, List.getD_eq_getElem?_getD,
    List.getElem?_reverse (by omega), hlength]

end Sys2Proof.Machine
end

section
/-! PROOFS. The exponent classes and the wires of class ALIGN, in magnitudes (40_decomposer.md R82 to R85,
41_unsigned_converter.md R102, R103). -/

namespace Sys2Proof.Machine

/-- Settles O9: SMALL is a negative exponent, and that is a magnitude below 1. -/
theorem smallIsMagnitudeBelowOne : Obligations.SmallIsMagnitudeBelowOne := by
  intro W bits
  have hexp := expOf_eq bits
  rw [classOf_small]
  refine ⟨by omega, fun x hx => (abs_val_lt_one_iff bits x hx).symm, fun hneg => ?_, fun hzero => ?_⟩
  · obtain ⟨x, hx⟩ := (val_isFinite_iff bits).2 (by omega)
    exact ⟨x, hx, floor_abs_eq_zero x ((abs_val_lt_one_iff bits x hx).2 hneg)⟩
  · have := (isZero_or_isSub_iff bits).1 hzero
    omega

/-- A finite operand has magnitude at least 2^n exactly when its exponent is at least `n`. -/
theorem two_pow_le_abs_val_iff {bits : Word} {x : ℚ} (h : val bits = .finite x) (n : Nat) :
    (2 : ℚ) ^ n ≤ |x| ↔ (n : ℤ) ≤ expOf bits := by
  rcases val_finite_cases bits x h with ⟨hzero, hlt⟩ | ⟨-, -, habs⟩
  · have hone : (1 : ℚ) ≤ 2 ^ n := one_le_pow₀ (by norm_num)
    have hexp := expOf_eq bits
    exact iff_of_false (by linarith) (by omega)
  · rw [habs, ← zpow_natCast]
    constructor
    · intro hle
      by_contra hlt
      have hbelow : (2 : ℚ) ^ (expOf bits + 1) ≤ 2 ^ (n : ℤ) := zpow_le_zpow_right₀ (by norm_num) (by omega)
      linarith [abs_lt_two_zpow bits]
    · intro hle
      exact (zpow_le_zpow_right₀ (by norm_num) hle).trans (two_zpow_le_abs bits)

/-- From exponent 52 on the magnitude is a multiple of the weight of the last mantissa bit. -/
theorem abs_val_eq_natCast_mul {bits : Word} {x : ℚ} (h : val bits = .finite x) (he : 52 ≤ expOf bits) :
    |x| = ((2 ^ 52 + (mant bits).toNat : ℕ) : ℚ) * 2 ^ (expOf bits - 52).toNat := by
  rcases val_finite_cases bits x h with ⟨hzero, -⟩ | ⟨-, -, habs⟩
  · have hexp := expOf_eq bits
    omega
  · obtain ⟨k, hk⟩ := Int.eq_ofNat_of_zero_le (show 0 ≤ expOf bits - 52 by omega)
    rw [habs, hk, zpow_natCast, Int.toNat_natCast]
    push_cast
    rfl

/-- In class HUGE the whole part vanishes modulo 2^W (R84). -/
theorem floor_abs_val_emod_of_huge (W : Width) {bits : Word} {x : ℚ} (h : val bits = .finite x)
    (he : 52 + (W.bits : ℤ) ≤ expOf bits) : ⌊|x|⌋ % 2 ^ W.bits = 0 := by
  obtain ⟨e, hnat⟩ := Int.eq_ofNat_of_zero_le (show 0 ≤ expOf bits by omega)
  rw [floor_abs_val bits x h e hnat]
  exact_mod_cast wholePart_huge W (mant bits).toNat e (by omega)

/-- Settles O10: HUGE is an exponent of 52 + W or more. -/
theorem hugeIsZeroModuloTwoToTheW : Obligations.HugeIsZeroModuloTwoToTheW := by
  intro W bits
  have hexp := expOf_eq bits
  rw [classOf_huge]
  refine ⟨by omega, fun x hx => ?_, fun x hx hhuge => ?_, fun hspecial => ?_⟩
  · rw [two_pow_le_abs_val_iff hx]
    push_cast
    rfl
  · exact ⟨⟨_, abs_val_eq_natCast_mul hx (by omega)⟩, floor_abs_val_emod_of_huge W hx hhuge⟩
  · have hmax := (isInf_or_isNaN_iff_bexp bits).1 hspecial
    cases W <;> simp only [Width.bits] <;> omega

/-- Settles O11: class ALIGN bounds the exponent on both sides, and the amounts are linear in it. -/
theorem shiftAmountsAreBelowTheWidth : Obligations.ShiftAmountsAreBelowTheWidth := by
  intro W bits halign
  rw [classOf_align] at halign
  omega

/-- Settles O13: the wire is the whole part modulo 2^W, and below `e = W` the whole part is below 2^W. -/
theorem magnitudeWireIsTheFloorModuloTwoToTheW : Obligations.MagnitudeWireIsTheFloorModuloTwoToTheW := by
  intro W bits x halign hx
  rw [classOf_align] at halign
  obtain ⟨e, he⟩ := Int.eq_ofNat_of_zero_le halign.1
  rw [floor_abs_val bits x hx e he, magnitude_toNat W bits e he, he]
  refine ⟨by push_cast; rfl, fun hlt => ?_⟩
  have hpow : 2 ^ (e + 1) ≤ 2 ^ W.bits := Nat.pow_le_pow_right (by norm_num) (by omega)
  rw [Nat.mod_eq_of_lt ((wholePart_lt _ e (mant_lt bits)).trans_le hpow)]

/-- Settles O14: the bits kept lie below bit `e`, which is the one bit added. -/
theorem implicitBitAdditionNeverCarries : Obligations.ImplicitBitAdditionNeverCarries := by
  intro W bits halign hlt
  rw [classOf_align] at halign
  obtain ⟨e, he⟩ := Int.eq_ofNat_of_zero_le halign.1
  have heW : e < W.bits := by omega
  have hkept := masked_toNat W bits e he heW
  have hone := oneAt_toNat W bits e he heW
  have hbelow := mantissaPart_lt (mant bits).toNat e (mant_lt bits)
  have hpow : 2 ^ e + 2 ^ e ≤ 2 ^ W.bits := by
    rw [← Nat.two_mul, ← Nat.pow_succ']
    exact Nat.pow_le_pow_right (by norm_num) heW
  refine ⟨by rwa [hkept, hone], by rw [hkept, hone]; omega, BitVec.eq_of_toNat_eq ?_⟩
  rw [BitVec.toNat_add, BitVec.toNat_or, hkept, hone, Nat.mod_eq_of_lt (by omega), Nat.add_comm, Nat.lor_comm]
  simpa using Nat.two_pow_add_eq_or_of_lt hbelow 1

end Sys2Proof.Machine
end

section
/-! PROOFS. Both converters as the operand's integer part modulo 2^W: the signed one is the same vector read in two's
complement (41_unsigned_converter.md R100, 42_signed_converter.md R120 to R123). -/

namespace Sys2Proof.Machine

theorem minValue_eq (W : Width) : minValue W = -(maxValue W + 1) := by simp [minValue, maxValue]

theorem two_pow_bits_sub_one_eq (W : Width) : (2 : Int) ^ (W.bits - 1) = maxValue W + 1 := by
  rw [maxValue, sub_add_cancel]

theorem two_pow_bits_eq (W : Width) : (2 : Int) ^ W.bits = 2 * (maxValue W + 1) := by cases W <;> rfl

/-- The second branch of the document's formula subtracts 2^W (R121). -/
theorem reinterpretSigned_of_gt {W : Width} {u : Int} (h : maxValue W < u) :
    reinterpretSigned W u = u - 2 ^ W.bits := by
  rw [reinterpretSigned, if_neg (not_le.2 h), minValue_eq, two_pow_bits_eq]
  ring

/-- Settles O16: with `MaxValue` for 2^(W−1) − 1 the bounds are linear. -/
theorem signedFormulaStaysInRange : Obligations.SignedFormulaStaysInRange := by
  intro W u hlow hhigh
  rw [two_pow_bits_sub_one_eq] at hlow ⊢
  rw [reinterpretSigned_of_gt (by omega), minValue_eq]
  rw [two_pow_bits_eq] at hhigh ⊢
  omega

/-- The signed result is the unsigned vector read in two's complement. -/
theorem toIntWidth_eq_toInt (W : Width) (bits : Word) : toIntWidth W bits = (toUintWidth W bits).toInt := by
  have hpow := two_pow_bits_eq W
  rw [toIntWidth, BitVec.toInt_eq_toNat_cond]
  split
  next h =>
    have hle : ((toUintWidth W bits).toNat : Int) ≤ maxValue W := by
      zify at h
      omega
    rw [reinterpretSigned, if_pos hle]
  next h =>
    rw [reinterpretSigned_of_gt]
    · norm_cast
    · zify at h
      omega

/-- R123: the pattern of the signed result is the unsigned one. -/
theorem signedBits_eq (W : Width) (bits : Word) : signedBits W bits = toUintWidth W bits := by
  rw [signedBits, toIntWidth_eq_toInt, BitVec.ofInt_toInt]

/-- R100 in one equation: finite or not, the unsigned result is the integer part modulo 2^W. -/
theorem toUintWidth_toNat_eq (W : Width) (bits : Word) :
    ((toUintWidth W bits).toNat : Int) = integerPart bits % 2 ^ W.bits := by
  by_cases hfinite : ∃ x, val bits = .finite x
  · obtain ⟨x, hx⟩ := hfinite
    rw [integerPart_finite bits x hx, toUintWidth_toNat_of_finite W bits x hx]
  · have hspecial := (isInf_or_isNaN_iff bits).2 hfinite
    rw [integerPart_nonfinite bits hspecial, toUintWidth_of_nonfinite W bits hspecial]
    simp

theorem toUintWidth_eq_ofInt (W : Width) (bits : Word) :
    toUintWidth W bits = BitVec.ofInt W.bits (integerPart bits) := by
  apply BitVec.eq_of_toNat_eq
  rw [BitVec.toNat_ofInt, ← Int.toNat_natCast (toUintWidth W bits).toNat, toUintWidth_toNat_eq]
  norm_cast

/-- R120 in one equation: the signed result is the integer of the signed W-bit range congruent to the integer part. -/
theorem toIntWidth_eq_bmod (W : Width) (bits : Word) : toIntWidth W bits = (integerPart bits).bmod (2 ^ W.bits) := by
  rw [toIntWidth_eq_toInt, toUintWidth_eq_ofInt, BitVec.toInt_ofInt]

/-- Settles O15: the branches of the formula, then the range and the residue of a vector read in two's complement. -/
theorem signedConverterMeetsTheContract : Obligations.SignedConverterMeetsTheContract := by
  intro W bits
  have hmax := two_pow_bits_sub_one_eq W
  refine ⟨signedBits_eq W bits, fun hlow => ?_, fun hhigh => ?_, ?_, ?_, fun x hx => ?_, fun hspecial => ?_⟩
  · zify at hlow
    rw [toIntWidth, reinterpretSigned, if_pos (by omega)]
  · zify at hhigh
    rw [toIntWidth, reinterpretSigned_of_gt (by omega)]
  · rw [toIntWidth_eq_toInt]
    exact BitVec.le_toInt _
  · rw [toIntWidth_eq_toInt, Int.le_sub_one_iff]
    exact BitVec.toInt_lt
  · rw [toIntWidth_eq_bmod, integerPart_finite bits x hx]
    exact_mod_cast Int.bmod_emod
  · rw [toIntWidth_eq_toInt, toUintWidth_of_nonfinite W bits hspecial]
    exact BitVec.toInt_zero

/-- Settles O19: the low bits of an integer modulo 2^64 are the integer modulo 2^32. -/
theorem lowHalfOfTheWideResult : Obligations.LowHalfOfTheWideResult := by
  intro d
  have hlow : (toUintWidth .w64 d).setWidth 32 = toUintWidth .w32 d := by
    apply BitVec.eq_of_toNat_eq
    have hmod : ((toUintWidth .w64 d).toNat : Int) % 2 ^ 32 = (toUintWidth .w32 d).toNat := by
      rw [toUintWidth_toNat_eq, toUintWidth_toNat_eq, Int.emod_emod_of_dvd _ (by decide)]
    rw [BitVec.toNat_setWidth]
    exact_mod_cast hmod
  exact ⟨hlow, by rw [signedBits_eq, hlow]⟩

/-! The operations answer with those values, extended to the port (30_encoding.md R70). -/

theorem exec_toint32 (d : Word) (s : State) :
    exec (.toint32 d) s = .next (s.answer (.result (BitVec.ofInt 64 (toIntWidth .w32 d)))) := by
  rw [toIntWidth_eq_toInt, ← signedBits_eq]
  rfl

theorem exec_toint64 (d : Word) (s : State) :
    exec (.toint64 d) s = .next (s.answer (.result (BitVec.ofInt 64 (toIntWidth .w64 d)))) := rfl

theorem exec_touint32 (d : Word) (s : State) :
    exec (.touint32 d) s = .next (s.answer (.result (zext64 (toUintWidth .w32 d)))) := rfl

theorem exec_touint64 (d : Word) (s : State) :
    exec (.touint64 d) s = .next (s.answer (.result (toUintWidth .w64 d))) := rfl

theorem exec_tointeger (d : Word) (s : State) (h : s.params.hasToInteger = true) :
    exec (.tointeger d) s = .next (s.answer (.result (toInteger d))) := if_pos h

/-- Settles O24: the unsigned result as a number is the integer part modulo 2^W, and the port extends it by zeros. -/
theorem unsignedOperationsAnswerTheCongruentValue : Obligations.UnsignedOperationsAnswerTheCongruentValue := by
  intro d s
  constructor
  · rw [exec_touint32, ← toUintWidth_toNat_eq .w32, BitVec.ofInt_natCast, BitVec.ofNat_toNat]
    rfl
  · rw [exec_touint64, ← toUintWidth_toNat_eq .w64, BitVec.ofInt_natCast, BitVec.ofNat_toNat, BitVec.setWidth_eq]

/-- Settles O25: the signed result is the balanced residue of the integer part. -/
theorem signedOperationsAnswerTheCongruentValue : Obligations.SignedOperationsAnswerTheCongruentValue := by
  intro d s
  rw [exec_toint32, exec_toint64, toIntWidth_eq_bmod, toIntWidth_eq_bmod]
  exact ⟨rfl, rfl⟩

/-- Both extensions keep the low 32 bits. -/
theorem setWidth_sext64_eq_setWidth_zext64 (v : BitVec 32) : (sext64 v).setWidth 32 = (zext64 v).setWidth 32 := by
  apply BitVec.eq_of_getLsbD_eq
  intro i hi
  simp [sext64, zext64, BitVec.getElem_signExtend, hi, show i < 64 by omega]

/-- Sign and zero extension agree exactly when the sign bit is 0: bit 63 shows it. -/
theorem sext64_eq_zext64_iff (v : BitVec 32) : sext64 v = zext64 v ↔ (zext64 v).getLsbD 31 = false := by
  have hmsb : (zext64 v).getLsbD 31 = v.msb := by simp [zext64, BitVec.msb_eq_getLsbD_last]
  rw [hmsb]
  refine ⟨fun h => ?_, BitVec.signExtend_eq_setWidth_of_msb_false⟩
  have htop := congrArg (BitVec.getLsbD · 63) h
  simpa [sext64, zext64, BitVec.getElem_signExtend] using htop

/-- Settles O17: at 64 bits the two patterns are one vector, at 32 bits its two extensions. -/
theorem signednessOnlyChoosesTheExtension : Obligations.SignednessOnlyChoosesTheExtension := by
  intro d s
  refine ⟨?_, sext64 (toUintWidth .w32 d), zext64 (toUintWidth .w32 d), ?_, exec_touint32 d s,
    setWidth_sext64_eq_setWidth_zext64 _, sext64_eq_zext64_iff _⟩
  · rw [exec_touint64, ← signedBits_eq, exec_toint64, signedBits]
  · rw [← signedBits_eq]
    rfl

/-- Settles O18: an integer of the int32 range is its own residue at both widths. -/
theorem signedConvertersAgreeOnInt32 : Obligations.SignedConvertersAgreeOnInt32 := by
  refine ⟨fun d hspecial => ?_, by decide, by decide, fun d x s hx hlow hhigh => ?_, fun s => ⟨?_, ?_⟩⟩
  · rw [toIntWidth_eq_bmod, integerPart_nonfinite d hspecial.symm]
    rfl
  · rw [← integerPart_finite d x hx] at hlow hhigh
    rw [exec_toint64, exec_toint32, toIntWidth_eq_bmod, toIntWidth_eq_bmod, Int.bmod_eq_of_le, Int.bmod_eq_of_le]
    all_goals simp only [Width.bits]; omega
  · rw [exec_toint32, show toIntWidth .w32 0x41E0000000000000 = -2147483648 by decide]
    rfl
  · rw [exec_toint64, show toIntWidth .w64 0x41E0000000000000 = 2147483648 by decide]
    rfl

end Sys2Proof.Machine
end

section
/-! PROOFS. What the branches of ToInteger keep: the sign, a result of its own truncation, and every fixed-width
conversion (43_tointeger.md R142 to R145). -/

namespace Sys2Proof.Machine

theorem expOf_of_nonfinite {d : Word} (h : isInf d = true ∨ isNaN d = true) : expOf d = 1024 := by
  rw [expOf_eq, (isInf_or_isNaN_iff_bexp d).1 h]
  rfl

theorem expOf_of_isZero {d : Word} (h : isZero d = true) : expOf d = -1023 := by
  rw [expOf_eq, ((isZero_iff d).1 h).1]
  rfl

/-- A zero is the zero of its own sign. -/
theorem signedZero_of_isZero {d : Word} (h : isZero d = true) : signedZero d = d := by
  obtain ⟨hbexp, hmant⟩ := (isZero_iff d).1 h
  obtain ⟨hsign, hbexp', hmant'⟩ := signedZero_fields d
  refine eq_of_fields hsign (hbexp'.trans ?_) (hmant'.trans ?_)
  · exact (BitVec.eq_of_toNat_eq hbexp).symm
  · exact (BitVec.eq_of_toNat_eq hmant).symm

/-- A negative exponent gives the zero of the operand's sign, a zero operand's own included. -/
theorem toInteger_of_expOf_neg {d : Word} (h : expOf d < 0) : toInteger d = signedZero d := by
  rcases toInteger_cases d with ⟨hnan, -⟩ | ⟨-, heq, hzero | hinf | ⟨hge, -⟩⟩ | ⟨-, -, -, heq⟩ | ⟨e, he, -⟩
  · have := expOf_of_nonfinite (.inr hnan)
    omega
  · rw [heq, signedZero_of_isZero hzero]
  · have := expOf_of_nonfinite (.inl hinf)
    omega
  · omega
  · exact heq
  · omega

/-- An exponent from 0 to 51 leaves bits below the binary point, and they are cleared. -/
theorem toInteger_of_expOf_lt {d : Word} {e : Nat} (he : expOf d = e) (hlt : e < 52) :
    toInteger d = clearLow d (52 - e) := by
  rcases toInteger_cases d with ⟨hnan, -⟩ | ⟨-, -, hzero | hinf | ⟨hge, -⟩⟩ | ⟨-, hneg, -⟩ | ⟨e', he', -, -, heq⟩
  · have := expOf_of_nonfinite (.inr hnan)
    omega
  · have := expOf_of_isZero hzero
    omega
  · have := expOf_of_nonfinite (.inl hinf)
    omega
  · omega
  · omega
  · obtain rfl : e' = e := by omega
    exact heq

theorem sign_toInteger {d : Word} (h : isNaN d = false) : sign (toInteger d) = sign d := by
  rcases toInteger_cases d with ⟨hnan, -⟩ | ⟨-, heq, -⟩ | ⟨-, -, -, heq⟩ | ⟨e, -, -, -, heq⟩
  · exact absurd (h.symm.trans hnan) (by decide)
  · rw [heq]
  · rw [heq]
    exact (signedZero_fields d).1
  · rw [heq]
    exact (clearLow_fields d (52 - e) (Nat.sub_le 52 e)).1

/-- Settles O21: below magnitude 1 the result is `signedZero`, which has two values. -/
theorem toIntegerKeepsTheSign : Obligations.ToIntegerKeepsTheSign :=
  fun d h => ⟨sign_toInteger h, fun hneg => (toInteger_of_expOf_neg hneg).trans (signedZero_eq d)⟩

theorem clearLow_clearLow (d : Word) (k : Nat) : clearLow (clearLow d k) k = clearLow d k := by
  rw [clearLow, clearLow, BitVec.and_assoc, BitVec.and_self]

/-- What a branch of ToInteger has answered, ToInteger answers with again. -/
theorem toInteger_toInteger (d : Word) : toInteger (toInteger d) = toInteger d := by
  rcases toInteger_cases d with ⟨-, heq⟩ | ⟨-, heq, -⟩ | ⟨-, -, -, heq⟩ | ⟨e, he, hlt, -, heq⟩
  · rw [heq]
    exact toInteger_of_isZero rfl
  · rw [heq, heq]
  · rw [heq]
    exact toInteger_of_isZero (isZero_signedZero d)
  · obtain ⟨-, hbexp, -⟩ := clearLow_fields d (52 - e) (Nat.sub_le 52 e)
    rw [heq, toInteger_of_expOf_lt ((expOf_congr hbexp).trans he) hlt, clearLow_clearLow]

/-- A result is a zero, an infinity, or has a magnitude from 1 on. -/
theorem toInteger_kinds (d : Word) :
    isZero (toInteger d) = true ∨ isInf (toInteger d) = true ∨
      (0 ≤ expOf (toInteger d) ∧ expOf (toInteger d) ≤ 1023) := by
  rcases toInteger_cases d with ⟨-, heq⟩ | ⟨-, heq, hkept⟩ | ⟨-, -, -, heq⟩ | ⟨e, he, hlt, -, heq⟩
  · rw [heq]
    exact .inl rfl
  · rw [heq]
    exact hkept.imp_right (Or.imp_right fun ⟨hlow, hhigh⟩ => ⟨by omega, hhigh⟩)
  · rw [heq]
    exact .inl (isZero_signedZero d)
  · obtain ⟨-, hbexp, -⟩ := clearLow_fields d (52 - e) (Nat.sub_le 52 e)
    rw [heq, expOf_congr hbexp, he]
    exact .inr (.inr ⟨by omega, by omega⟩)

/-- Settles O22: no kind of result has the fields of a NaN or of a subnormal. -/
theorem toIntegerIsIdempotent : Obligations.ToIntegerIsIdempotent := by
  intro d
  have hexp := expOf_eq (toInteger d)
  have hkinds := toInteger_kinds d
  rw [isZero_iff, isInf_iff] at hkinds
  refine ⟨toInteger_toInteger d, ?_, ?_⟩
  · rw [← Bool.not_eq_true, isNaN_iff]
    omega
  · rw [← Bool.not_eq_true, isSub_iff]
    omega

theorem integerPart_eq_truncate {d : Word} {x : ℚ} (h : val d = .finite x) : integerPart d = truncate x := by
  rw [integerPart_finite d x h, truncate_eq d x (val_eq_signFactor_mul_abs d x h)]

theorem truncate_intCast (n : ℤ) : truncate (n : ℚ) = n := by simp [truncate]

/-- ToInteger leaves the integer that a fixed-width conversion reduces. -/
theorem integerPart_toInteger (d : Word) : integerPart (toInteger d) = integerPart d := by
  by_cases hfinite : ∃ x, val d = .finite x
  · obtain ⟨x, hx⟩ := hfinite
    rw [integerPart_eq_truncate (val_toInteger hx), truncate_intCast, integerPart_eq_truncate hx]
  · obtain hinf | hnan := (isInf_or_isNaN_iff d).2 hfinite
    · rw [toInteger_of_isInf hinf]
    · rw [toInteger_of_isNaN hnan, integerPart_nonfinite d (.inr hnan),
        integerPart_eq_truncate (val_of_isZero (bits := 0) rfl)]
      exact truncate_intCast 0

/-- Settles O23: both conversions are functions of the integer part. -/
theorem toIntegerChangesNoConversion : Obligations.ToIntegerChangesNoConversion := by
  intro W d
  rw [toUintWidth_eq_ofInt, toUintWidth_eq_ofInt, toIntWidth_eq_bmod, toIntWidth_eq_bmod, integerPart_toInteger]
  exact ⟨rfl, rfl⟩

/-- Settles O26: with the option the answer is ToInteger of the operand, which truncates and keeps the sign. -/
theorem tointegerAnswersTheTruncatedDouble : Obligations.TointegerAnswersTheTruncatedDouble := by
  intro d s hoption
  refine ⟨toInteger d, exec_tointeger d s hoption, toInteger_of_isNaN, toInteger_of_isInf, fun x hx => ?_⟩
  have hfinite : isNaN d = false := by
    rw [← Bool.not_eq_true]
    exact fun hnan => (isInf_or_isNaN_iff d).1 (.inr hnan) ⟨x, hx⟩
  exact ⟨val_toInteger hx, sign_toInteger hfinite⟩

/-- Settles O27: without the option op code 4 is reserved. -/
theorem tointegerWithoutTheOptionIsIllegal : Obligations.TointegerWithoutTheOptionIsIllegal := by
  intro d s hoption
  have hreserved : reservedOp s.params (opCode (.tointeger d)) = true := by simp [opCode, reservedOp, hoption]
  rw [exec_eq, Exec_of_reservedOp hreserved]
  rfl

end Sys2Proof.Machine
end

section
/-! PROOFS. The response port of a combinational instance, wire by wire (10_state.md R27, 30_encoding.md R69, R70). -/

namespace Sys2Proof.Machine

/-- Without slots a response is on the port in the cycle of its request. -/
theorem State.answer_rsp_of_no_slots {s : State} (h : s.slots = []) (r : Response) : (s.answer r).rsp = some r := by
  rw [State.answer_rsp, h]
  rfl

/-- Bit 64 of the response word is `ill` (R69). -/
theorem State.rspWord_getLsbD_64 (s : State) : s.rspWord.getLsbD 64 = s.rspIll := by
  rw [State.rspWord, BitVec.getLsbD_append]
  simp

/-- What an instance without slots shows when an operation answers with `r`, whatever is asked of `r`. -/
theorem exists_port_shows_result {s : State} (hs : s.slots = []) {o : Host.Outcome State Fault Refusal} {r : Word}
    (ho : o = .next (s.answer (.result r))) (P : Word → Prop) (hr : P r) :
    ∃ t, o = .next t ∧ t.rspValid = true ∧ t.rspIll = false ∧ P t.rspR ∧ t.rspWord.getLsbD 64 = false := by
  have hport := State.portOut_of_result (State.answer_rsp_of_no_slots hs (.result r))
  obtain ⟨hvalid, hill, hvalue⟩ := PortOut.mk.inj hport
  exact ⟨_, ho, hvalid, hill, hvalue.symm ▸ hr, (State.rspWord_getLsbD_64 _).trans hill⟩

/-- The pattern of a signed result, read as signed, is the result. -/
theorem toInt_ofInt_toIntWidth (W : Width) (d : Word) : (BitVec.ofInt 64 (toIntWidth W d)).toInt = toIntWidth W d := by
  rw [toIntWidth_eq_toInt]
  exact BitVec.toInt_signExtend_of_le (by cases W <;> decide)

theorem toNat_zext64 (v : BitVec 32) : (zext64 v).toNat = v.toNat := BitVec.toNat_setWidth_of_le (by decide)

/-- Settles O43: each operation's answer is on the port at once, and is the converter's result. -/
theorem portShowsTheResultInTheSameCycle : Obligations.PortShowsTheResultInTheSameCycle := by
  intro s d hs
  refine ⟨?_, ?_, ?_, ?_, fun hoption => ?_, fun op => ⟨_, rfl, ?_⟩⟩
  · exact exists_port_shows_result hs (exec_toint32 d s) (·.toInt = _) (toInt_ofInt_toIntWidth .w32 d)
  · exact exists_port_shows_result hs (exec_touint32 d s) (·.toNat = _) (toNat_zext64 _)
  · exact exists_port_shows_result hs (exec_toint64 d s) (·.toInt = _) (toInt_ofInt_toIntWidth .w64 d)
  · exact exists_port_shows_result hs (exec_touint64 d s) (·.toNat = _) rfl
  · exact exists_port_shows_result hs (exec_tointeger d s hoption) (· = _) rfl
  · have hrsp := State.answer_rsp_of_no_slots hs (.illegalOp op)
    rw [State.rspWord_getLsbD_64, State.rspValid, State.rspIll, hrsp]
    exact ⟨rfl, rfl, rfl⟩

end Sys2Proof.Machine
end

section
/-! PROOFS. A run without a reset: the responses issued, the idle cycles in which the last of them leave, and so the
responses read (10_state.md R28, R47; 70_reset_and_hazards.md section 4). -/

namespace Sys2Proof.Machine

theorem State.afterCycles_add (n m : Nat) (s : State) : s.afterCycles (n + m) = (s.afterCycles n).afterCycles m := by
  induction n generalizing s with
  | zero => rw [Nat.zero_add]; rfl
  | succ n ih => rw [Nat.add_right_comm, State.afterCycles_succ, ih, State.afterCycles_succ]

@[simp] theorem State.afterCycles_params (n : Nat) (s : State) : (s.afterCycles n).params = s.params := by
  induction n generalizing s with
  | zero => rfl
  | succ n ih => rw [State.afterCycles_succ, ih, State.after_params]

@[simp] theorem State.afterCycles_inputs (n : Nat) (s : State) : (s.afterCycles n).inputs = s.inputs.drop n := by
  induction n generalizing s with
  | zero => rfl
  | succ n ih => rw [State.afterCycles_succ, ih, State.after_inputs, List.drop_tail]

theorem State.afterCycles_slots_length (n : Nat) (s : State) (h : s.slots.length = s.params.latency) :
    (s.afterCycles n).slots.length = s.params.latency := by
  induction n generalizing s with
  | zero => exact h
  | succ n ih =>
    rw [State.afterCycles_succ, ih s.after (s.after_slots_length h), State.after_params]

/-- Without a reset every request presented is issued its response, in order, and nothing else is issued. -/
theorem State.issued_afterCycles (n : Nat) (s : State) (h : s.NoResetFor n) :
    (s.afterCycles n).issued = s.issued ++ (s.inputs.take n).filterMap (PortIn.response s.params) := by
  induction n generalizing s with
  | zero => simp [State.afterCycles]
  | succ n ih =>
    obtain ⟨hrst, hlater⟩ := (s.noResetFor_succ n).1 h
    have hissued : s.after.issued = s.issued ++ (s.portIn.response s.params).toList := by
      rw [State.after_of_no_reset hrst, State.issued_clock]
      rfl
    rw [State.afterCycles_succ, ih s.after hlater, hissued, State.after_params, State.after_inputs, List.append_assoc]
    congr 1
    unfold State.portIn
    cases s.inputs with
    | nil => simp [PortIn.response_idle]
    | cons pin rest => cases hr : pin.response s.params <;> simp [hr]

/-- An idle cycle past the end of the list puts an empty slot before those that are empty already. -/
theorem State.after_slots_take_of_no_inputs {s : State} (hinputs : s.inputs = []) {k : Nat}
    (h : (s.slots.take k).all Option.isNone = true) : (s.after.slots.take (k + 1)).all Option.isNone = true := by
  have hport : s.portIn = PortIn.idle := by rw [State.portIn, hinputs]; rfl
  have hslots : s.after.slots = (none :: s.slots).dropLast := by
    rw [State.after_of_no_reset (by rw [hport]; rfl), hport]
    rfl
  have hempty : ((none :: s.slots).take (k + 1)).all Option.isNone = true := by
    rw [List.take_succ_cons, List.all_cons, h]
    rfl
  rw [List.all_eq_true] at hempty ⊢
  intro slot hslot
  rw [hslots, List.dropLast_eq_take, List.take_take] at hslot
  exact hempty slot (List.take_subset_take_left _ (Nat.min_le_left _ _) hslot)

theorem State.afterCycles_slots_take_of_no_inputs (n : Nat) {s : State} (hinputs : s.inputs = []) {k : Nat}
    (h : (s.slots.take k).all Option.isNone = true) :
    ((s.afterCycles n).slots.take (k + n)).all Option.isNone = true := by
  induction n generalizing s k with
  | zero => exact h
  | succ n ih =>
    have hnext := State.after_slots_take_of_no_inputs hinputs h
    rw [State.afterCycles_succ, Nat.add_comm n, ← Nat.add_assoc]
    exact ih (by rw [State.after_inputs, hinputs]; rfl) hnext

/-- `LATENCY` cycles past the end of the list leave nothing in flight. -/
theorem State.nothingInFlight_afterCycles {s : State} (hslots : s.slots.length = s.params.latency)
    (hinputs : s.inputs = []) : (s.afterCycles s.params.latency).NothingInFlight := by
  have hempty := State.afterCycles_slots_take_of_no_inputs s.params.latency hinputs (k := 0) rfl
  rwa [Nat.zero_add, List.take_of_length_le (s.afterCycles_slots_length _ hslots).le] at hempty

/-- With nothing in flight the responses issued are those read. -/
theorem State.issued_of_nothingInFlight {s : State} (h : s.NothingInFlight) : s.issued = s.received := by
  have hnone : s.slots.reverse.filterMap id = [] := by
    rw [List.filterMap_eq_nil_iff]
    simpa [State.NothingInFlight] using h
  rw [State.issued, hnone, List.append_nil]

/-- The run of a program without a reset and of `LATENCY` cycles more. -/
theorem State.afterCycles_program {s : State} (hslots : s.slots.length = s.params.latency) (hidle : s.NothingInFlight)
    (h : s.NoResetFor s.inputs.length) :
    (s.afterCycles (s.inputs.length + s.params.latency)).NothingInFlight ∧
    (s.afterCycles (s.inputs.length + s.params.latency)).received =
      s.received ++ s.inputs.filterMap (PortIn.response s.params) := by
  have hend : (s.afterCycles (s.inputs.length + s.params.latency)).NothingInFlight := by
    rw [State.afterCycles_add]
    have hdrained := State.nothingInFlight_afterCycles (s := s.afterCycles s.inputs.length)
      (by rw [s.afterCycles_slots_length _ hslots, State.afterCycles_params]) (by simp)
    rwa [State.afterCycles_params] at hdrained
  have hwindow : s.NoResetFor (s.inputs.length + s.params.latency) := by
    rw [State.NoResetFor, List.take_of_length_le le_rfl] at h
    rwa [State.NoResetFor, List.take_of_length_le (Nat.le_add_right _ _)]
  refine ⟨hend, ?_⟩
  rw [← State.issued_of_nothingInFlight hend, s.issued_afterCycles _ hwindow, State.issued_of_nothingInFlight hidle,
    List.take_of_length_le (Nat.le_add_right _ _)]

/-- Settles O39: by `afterCycles_program`, since the responses issued are `Exec` of the requests. -/
theorem responsesAreExecOfTheRequestsInOrder : Obligations.ResponsesAreExecOfTheRequestsInOrder := by
  rintro s ⟨hslots, -⟩ hidle hreset
  obtain ⟨hend, hreceived⟩ := State.afterCycles_program hslots hidle hreset
  exact ⟨_, runCycles_eq _ s, hreceived, hend⟩

/-- From reset, a program without a reset is answered alike whatever the latency. -/
theorem State.received_from_reset (p : Config.Params) (ins : List PortIn) (h : ins.all (fun pin => !pin.rst) = true) :
    (State.afterCycles (ins.length + p.latency) { State.resetOf p with inputs := ins }).received =
      ins.filterMap (PortIn.response p) := by
  obtain ⟨-, hreceived⟩ := State.afterCycles_program (s := { State.resetOf p with inputs := ins }) (by simp)
    (by simp) (by rwa [State.NoResetFor, List.take_of_length_le le_rfl])
  exact hreceived

/-- Settles O42: both instances have read `Exec` of the requests, which does not depend on the latency. -/
theorem latencyChangesNoResponse : Obligations.LatencyChangesNoResponse := by
  intro p ins hreset
  refine ⟨_, _, runCycles_eq _ _, runCycles_eq _ _, ?_⟩
  have hcombinational := State.received_from_reset { p with latency := 0 } ins hreset
  rw [State.received_from_reset p ins hreset]
  refine Eq.trans ?_ hcombinational.symm
  exact congrArg (ins.filterMap ·) (funext (PortIn.response_congr rfl))

end Sys2Proof.Machine
end
